-- ==== Sys2Proof/Word.lean ====
section
/-! DEFINITION. The 16-bit bus word (spec/00_scope.md R8). -/

namespace Sys2Proof

/-- A bus address or a bus data word: "The bus word width is 16 bits", "The bus address width is 16 bits" (R8). -/
abbrev Word := BitVec 16

end Sys2Proof
end

