-- ==== Sys2Proof/Machine/Memory.lean ====
section
/-! DEFINITION. The rows of one bank (spec/10_state.md R27) as a list of (row number, contents) pairs in one canonical
form: row numbers strictly rising. -/

namespace Sys2Proof.Machine

/-- The rows of a bank that have been written since construction; an unlisted row holds INIT(i, r) (R37). A cell is one
whole row, since "The block has no byte addressing" (R44; log entry 3). -/
abbrev Memory := List (Nat × Word)

/-- The canonical form: row numbers strictly rising, so no row is listed twice. INIT is under no law, so no listed value is
known to equal it, and a row once written stays listed (log entry 3). -/
abbrev Memory.wf (m : Memory) : Prop := (m.map Prod.fst).Pairwise (· < ·)

/-- What is listed for row `r`; `none` where the row has not been written. -/
def Memory.lookup : Memory → Nat → Option Word
  | [], _ => none
  | (k, v) :: m, r => if r = k then some v else Memory.lookup m r

/-- Row `r` holds `v`, every other row what it held; the canonical form is kept. -/
def Memory.write : Memory → Nat → Word → Memory
  | [], r, v => [(r, v)]
  | (k, x) :: m, r, v =>
    if r < k then (r, v) :: (k, x) :: m
    else if r = k then (r, v) :: m
    else (k, x) :: Memory.write m r v

end Sys2Proof.Machine
end

