-- ==== Sys2Proof/Config.lean ====
section
/-! DEFINITION. What is fixed for one core: its configuration (spec/00_scope.md R6, R7, R10), and the free values the
spec leaves open (INIT, R12; the draws, R36, R112, R182; results on operands of which it states none, R80, R83, R132). -/

namespace Sys2Proof

/-- The configuration of a constructed core: DEPTH, WIDTH, BASE_ADDR (R6, R7) with the checks of R10, so that a
configuration R10 refuses is no value of this type. The third check is `MAX_ADDR <= 0xFFFF` with BANK_COUNT in the closed
form of R81; it implies the u16 and u32 bounds of R6, R7 and R161. -/
structure CoreConfig where
  depth : Nat
  width : Nat
  base : Nat
  depth_pos : 1 ≤ depth
  width_pos : 1 ≤ width
  fits : base + depth * ((width + 15) / 16) - 1 ≤ 0xFFFF
deriving DecidableEq, Repr

/-- K33, the configuration of the source's scenario: `DEPTH = 4, WIDTH = 33, BASE_ADDR = 100` (41_pipeline.md, T6).
DESIGN CHOICE (log entry 1): the spec names no configuration for reset; this one is the reset state's. -/
def CoreConfig.k33 : CoreConfig := ⟨4, 33, 100, by decide, by decide, by decide⟩

/-- `INIT(i, r)` of core `core`: bank `i` row `r` at construction, before its cut to BW(i) bits. "a parameter the model
takes as an argument under no law" (R37, D8). A free value: it has no body, nothing can be proved of it. -/
opaque Config.init : (core bank row : Nat) → Word

/-- The `n`-th draw of core `core` for bank `i`, before its cut to BW(i) bits: the collision draw `d_k(i)` (R112, D5) and
the unspecified `rdata[i]` at construction and platform reset (R36, R182). A free value, with no body. -/
opaque Config.draw : (core n bank : Nat) → Word

/-- What BANK_WIDTHS gives for a width of 0, of which R80 states no result. A free value, with no body (DESIGN CHOICE, log
entry 10). -/
opaque Config.widthsOfZero : List Nat

/-- What WINDOW gives for an index that is no bank of the configuration, of which R83 states no result. A free value, with no
body (DESIGN CHOICE, log entry 10). -/
opaque Config.windowOutside : CoreConfig → (index : Nat) → Nat × Nat

/-- What VALUE_TO_WORDS gives for a value `>= 0` and an `n_words` that is no u32, of which R132 states no result: words, or
`none` for RangeError. A free value, with no body (DESIGN CHOICE, log entry 10). -/
opaque Config.wordsOutside : (value : Int) → (nWords : Nat) → Option (List Nat)

end Sys2Proof
end

