-- ==== Sys2Proof/Machine/AddressDecoder.lean ====
section
/-! DEFINITION. Bank partitioner, address-range decoder and bank selector (spec/40_address_decoder.md R80 to R89):
functions of the configuration, "with unbounded integer arithmetic" (R9). -/

namespace Sys2Proof.Machine

/-- `bank_widths(W)` (R80): the widths of the banks, bank 0 first. -/
def bankWidths (w : Nat) : List Nat :=
  if w < 16 then [w]
  else if w % 16 = 0 then List.replicate (w / 16) 16
  else List.replicate (w / 16) 16 ++ [w % 16]

/-- `BANK_COUNT = length(bank_widths(WIDTH))` (R81). -/
def bankCount (cfg : CoreConfig) : Nat := (bankWidths cfg.width).length

/-- `BW(i) := bank_widths(WIDTH)[i]` for `0 <= i < BANK_COUNT` (R80). No rule asks it of another index, where it is 0. -/
def bankWidth (cfg : CoreConfig) (i : Nat) : Nat := (bankWidths cfg.width).getD i 0

/-- `START(i) := BASE_ADDR + i * DEPTH` (R83). -/
def windowStart (cfg : CoreConfig) (i : Nat) : Nat := cfg.base + i * cfg.depth

/-- `STOP(i) := START(i) + DEPTH - 1` (R83). -/
def windowStop (cfg : CoreConfig) (i : Nat) : Nat := windowStart cfg i + cfg.depth - 1

/-- `MAX_ADDR = BASE_ADDR + DEPTH * BANK_COUNT - 1` (R85). -/
def maxAddr (cfg : CoreConfig) : Nat := cfg.base + cfg.depth * bankCount cfg - 1

/-- `AW = ceil(log2(DEPTH))`, 0 when `DEPTH = 1` (R9, D22): the width of `user_addr` and of `raddr[i]`. -/
def addrWidth (cfg : CoreConfig) : Nat := if cfg.depth ≤ 1 then 0 else Nat.log2 (cfg.depth - 1) + 1

/-- `Owns(i, a) := START(i) <= a and a <= STOP(i)` (R84), a comparison of unbounded integers. -/
def owns (cfg : CoreConfig) (i a : Nat) : Bool := decide (windowStart cfg i ≤ a) && decide (a ≤ windowStop cfg i)

/-- `a` lies in the owning window `[BASE_ADDR, MAX_ADDR]` of the core (R63, R85, R87). -/
def inWindow (cfg : CoreConfig) (a : Nat) : Bool := decide (cfg.base ≤ a) && decide (a ≤ maxAddr cfg)

/-- The bank selector `Sel(a)` (R88): the bank that owns `a`, where one does. The selector is one-hot, so the order of the
search decides nothing. -/
def selectBank (cfg : CoreConfig) (a : Nat) : Option Nat := (List.range (bankCount cfg)).find? (owns cfg · a)

end Sys2Proof.Machine
end

