-- ==== Sys2Proof/Machine/Ports.lean ====
section
/-! DEFINITION. What crosses the core's boundary: the bus transaction (spec/30_encoding.md R60), the user-port word (R65)
and the host's function calls (R70). -/

namespace Sys2Proof

/-- `BusTransaction` (R60): 34 bits, "sampled once per clock edge". `readWrite = false` denotes a read. -/
structure BusTxn where
  addr : Word
  data : Word
  readWrite : Bool
  valid : Bool
deriving DecidableEq, Repr

/-- The user-port word `{ user_addr: AW bits, user_data: WIDTH bits, user_we: 1 bit }` (R65). The widths depend on the
configuration, so the first two are numbers; WellFormed.lean states their bounds. -/
structure UserWord where
  addr : Nat
  data : Nat
  we : Bool
deriving DecidableEq, Repr

/-- The operand of READ_FROM_USER_ADDR: "either one logical address (an integer) or an ordered sequence" (R140). -/
inductive Addrs where
  | one (a : Int)
  | many (as : List Int)
deriving DecidableEq, Repr

/-- The operations "invoked as functions, not decoded from a word" (R70). -/
inductive HostCall where
  | bankWidths (width : Nat)
  | window (i : Nat)
  | maxAddr
  | wordsToValue (ws : List Int)
  | valueToWords (v : Int) (n : Nat)
  | readFromUserAddr (x : Addrs)
deriving DecidableEq, Repr

end Sys2Proof
end

