-- ==== Sys2Proof/Syntax.lean ====
section
/-! DEFINITION. The instructions: one constructor per row of spec/opcode_table.json. -/

namespace Sys2Proof

/-- The five bus transaction kinds (spec/30_encoding.md R63), the two user-port kinds (R65) and the six function
operations (R70). A bus kind carries the fields of its transaction that its kind does not fix (an idle word's fields are
don't-care but mirrored, R62, so they are kept). -/
inductive Instr where
  | busIdle (readWrite : Bool) (addr data : Word)
  | busReadOwned (addr data : Word)
  | busReadUnowned (addr data : Word)
  | busWriteOwned (addr data : Word)
  | busWriteUnowned (addr data : Word)
  | uportWrite (addr data : Nat)
  | uportNop (addr data : Nat)
  | bankWidths (width : Nat)
  | window (i : Nat)
  | maxAddr
  | wordsToValue (ws : List Int)
  | valueToWords (v : Int) (n : Nat)
  | readFromUserAddr (x : Addrs)
deriving DecidableEq, Repr

end Sys2Proof
end

