-- ==== Sys2Proof/WellFormed.lean ====
section
/-! DEFINITION. Which instructions a core of configuration `cfg` can be given: the conditions of spec/30_encoding.md R63,
R65 and of the operand lists of R80, R83, R132. -/

namespace Sys2Proof

/-- A user-port word fits its ports: `user_addr` has AW bits and `user_data` has WIDTH bits (R28, R65). -/
def userFits (cfg : CoreConfig) (addr data : Nat) : Bool :=
  decide (addr < 2 ^ Machine.addrWidth cfg) && decide (data < 2 ^ cfg.width)

/-- The check of one instruction. A codec word out of range, a negative value and a logical address out of range are not
checked here: the operations themselves answer them (R130, R132, R140). -/
def Instr.wf (cfg : CoreConfig) : Instr → Bool
  | .busIdle _ _ _ => true
  | .busReadOwned a _ => Machine.inWindow cfg a.toNat
  | .busReadUnowned a _ => !Machine.inWindow cfg a.toNat
  | .busWriteOwned a _ => Machine.inWindow cfg a.toNat
  | .busWriteUnowned a _ => !Machine.inWindow cfg a.toNat
  | .uportWrite a d => userFits cfg a d
  | .uportNop a d => userFits cfg a d
  | .bankWidths w => decide (1 ≤ w)
  | .window i => decide (i < Machine.bankCount cfg)
  | .maxAddr => true
  | .wordsToValue _ => true
  | .valueToWords _ n => decide (n < 2 ^ 32)
  | .readFromUserAddr _ => true

end Sys2Proof
end

