-- ==== Sys2Proof/Decode.lean ====
section
/-! DEFINITION. Reading an instruction from what a port or the host presents (spec/30_encoding.md R60 to R65, R70), and the
encoder that inverts it. "No bus word is illegal" (R67); what is refused is a number that is no word of the port at all. -/

namespace Sys2Proof

/-- The 34-bit bus word of a transaction: `valid ++ read_write ++ data ++ addr` (R61). -/
def BusTxn.pack (t : BusTxn) : BitVec 34 :=
  BitVec.ofBool t.valid ++ (BitVec.ofBool t.readWrite ++ (t.data ++ t.addr))

/-- The transaction of a 34-bit bus word, by the bit positions of R61. -/
def BusTxn.unpack (w : BitVec 34) : BusTxn :=
  { addr := w.extractLsb' 0 16, data := w.extractLsb' 16 16, readWrite := w.getLsbD 32, valid := w.getLsbD 33 }

/-- `IDLE` (R71), the word of an edge at which the bus master presents nothing. -/
def BusTxn.idle : BusTxn := { addr := 0, data := 0, readWrite := false, valid := false }

/-- `RD <a>` (R71). -/
def BusTxn.read (a : Word) : BusTxn := { addr := a, data := 0, readWrite := false, valid := true }

/-- `-` (R71), the word of an edge at which the side-channel owner writes nothing. -/
def UserWord.nop : UserWord := { addr := 0, data := 0, we := false }

/-- The number of bits of the user-port word: `user_we`, then AW bits of `user_addr`, then WIDTH bits of `user_data`. -/
def userBits (cfg : CoreConfig) : Nat := 1 + Machine.addrWidth cfg + cfg.width

/-- The notional user-port word as one number. `user_we` is bit 0 (D2); `user_addr` above it and `user_data` above that
are the model's own packing. DESIGN CHOICE (log entry 9): "the source packs them into no word, and no rule needs a packing"
(R65). -/
def UserWord.pack (cfg : CoreConfig) (u : UserWord) : Nat :=
  u.we.toNat + 2 * (u.addr + 2 ^ Machine.addrWidth cfg * u.data)

/-- The user-port word packed in a number, inverse to `UserWord.pack`. -/
def UserWord.unpack (cfg : CoreConfig) (w : Nat) : UserWord :=
  { addr := w / 2 % 2 ^ Machine.addrWidth cfg, data := w / 2 / 2 ^ Machine.addrWidth cfg, we := decide (w % 2 = 1) }

/-- The kind of a bus transaction (R63): "exactly one of the kinds", by `valid`, `read_write` and the owning window. -/
def decodeBus (cfg : CoreConfig) (t : BusTxn) : Instr :=
  if t.valid then
    if t.readWrite then
      if Machine.inWindow cfg t.addr.toNat then .busWriteOwned t.addr t.data else .busWriteUnowned t.addr t.data
    else if Machine.inWindow cfg t.addr.toNat then .busReadOwned t.addr t.data else .busReadUnowned t.addr t.data
  else .busIdle t.readWrite t.addr t.data

/-- The kind of a user-port word (R65). -/
def decodeUser (u : UserWord) : Instr := if u.we then .uportWrite u.addr u.data else .uportNop u.addr u.data

/-- A host call is its own instruction: it is "not decoded from a word" (R70). -/
def decodeCall : HostCall → Instr
  | .bankWidths w => .bankWidths w
  | .window i => .window i
  | .maxAddr => .maxAddr
  | .wordsToValue ws => .wordsToValue ws
  | .valueToWords v n => .valueToWords v n
  | .readFromUserAddr x => .readFromUserAddr x

/-- What the decoder is given: a number read from the bus port or from the user port, or a host call. -/
inductive Fetched where
  | bus (w : Nat)
  | user (w : Nat)
  | call (c : HostCall)
deriving DecidableEq, Repr

/-- Why a number is no word of its port. -/
inductive DecodeError where
  /-- the number needs more than the 34 bits of a bus word (R60) -/
  | busWordTooWide
  /-- the number needs more than the 1 + AW + WIDTH bits of the user port (R65) -/
  | userWordTooWide
deriving DecidableEq, Repr

/-- The decoder, total on every number: a number that fits its port is an instruction (R67). -/
def decode (cfg : CoreConfig) : Fetched → Except DecodeError Instr
  | .bus w => if w < 2 ^ 34 then .ok (decodeBus cfg (BusTxn.unpack (BitVec.ofNat 34 w))) else .error .busWordTooWide
  | .user w => if w < 2 ^ userBits cfg then .ok (decodeUser (UserWord.unpack cfg w)) else .error .userWordTooWide
  | .call c => .ok (decodeCall c)

/-- What stands in the tables for an instruction (R61, R63, R65, R70). -/
def encode (cfg : CoreConfig) : Instr → Fetched
  | .busIdle rw a d => .bus (BusTxn.pack { addr := a, data := d, readWrite := rw, valid := false }).toNat
  | .busReadOwned a d => .bus (BusTxn.pack { addr := a, data := d, readWrite := false, valid := true }).toNat
  | .busReadUnowned a d => .bus (BusTxn.pack { addr := a, data := d, readWrite := false, valid := true }).toNat
  | .busWriteOwned a d => .bus (BusTxn.pack { addr := a, data := d, readWrite := true, valid := true }).toNat
  | .busWriteUnowned a d => .bus (BusTxn.pack { addr := a, data := d, readWrite := true, valid := true }).toNat
  | .uportWrite a d => .user (UserWord.pack cfg { addr := a, data := d, we := true })
  | .uportNop a d => .user (UserWord.pack cfg { addr := a, data := d, we := false })
  | .bankWidths w => .call (.bankWidths w)
  | .window i => .call (.window i)
  | .maxAddr => .call .maxAddr
  | .wordsToValue ws => .call (.wordsToValue ws)
  | .valueToWords v n => .call (.valueToWords v n)
  | .readFromUserAddr x => .call (.readFromUserAddr x)

/-- Which port a row of opcode_table.json belongs to, by the number of bits the table gives it: a bus row has 34 bits (40 in
whole bytes), a user-port row has the one bit `user_we`. A function call has no bits and no word (R70). DESIGN CHOICE (log
entry 11): the numbers of bits in between name a port too. -/
def fetchedOfBits (nbits w : Nat) : Option Fetched :=
  if nbits = 0 then none
  else if nbits < 34 then some (.user w)
  else if nbits ≤ 40 then some (.bus w)
  else none

/-- The instruction the decoder reads from an opcode-table word, on the configuration of the reset state (log entry 11):
ownership "is not a fixed bit pattern" (R63), so a bus row needs a window. -/
def decodeTableWord (nbits w : Nat) : Option Instr :=
  match fetchedOfBits nbits w with
  | some f =>
    match decode CoreConfig.k33 f with
    | .ok i => some i
    | .error _ => none
  | none => none

end Sys2Proof
end

