-- ==== Sys2Proof/Machine/Operands.lean ====
section
/-! DEFINITION. Bit slices and the tests of the step on a transaction (spec/00_scope.md R15, spec/41_pipeline.md R102,
R104). -/

namespace Sys2Proof.Machine

/-- `v[lo + len - 1 : lo] = (v div 2^lo) mod 2^len` (R15). -/
def slice (v lo len : Nat) : Nat := v / 2 ^ lo % 2 ^ len

/-- `zext_16` of the low `n` bits of `v` (R15): what a value of an `n`-bit register or row is on the 16-bit bus, and how an
open value is cut to the `n` bits of its register or row. -/
def zext16 (n : Nat) (v : Word) : Word := (v.setWidth n).setWidth 16

/-- The slice of `user_data` that the side channel writes to bank `i`: `ud[16*i + BW(i) - 1 : 16*i]` (R110). -/
def userSlice (cfg : CoreConfig) (i ud : Nat) : Word := BitVec.ofNat 16 (slice ud (16 * i) (bankWidth cfg i))

/-- `valid = 1` and `read_write = 0`: the common part of the launch test (R104) and the egress test (R102). -/
def isRead (t : BusTxn) : Bool := t.valid && !t.readWrite

/-- The launch test of bank `i` on the transaction sampled at this edge, and the row it launches (R104). -/
def launches (cfg : CoreConfig) (i : Nat) (b : BusTxn) : Bool := isRead b && owns cfg i b.addr.toNat

/-- The kind's condition on the transaction as a whole: a valid read the core owns (R106). -/
def isOwnedRead (cfg : CoreConfig) (b : BusTxn) : Bool := isRead b && inWindow cfg b.addr.toNat

end Sys2Proof.Machine
end

