-- ==== Sys2Proof/Machine/Bank.lean ====
section
/-! DEFINITION. One storage bank with its two registers (spec/10_state.md R25, R26, R27), and its construction values. -/

namespace Sys2Proof.Machine

/-- Bank `i`: the read-address register `raddr[i]` (a row number, AW bits), the read-data register `rdata[i]` and the rows
`mem[i][r]` (BW(i) bits each, held in a 16-bit word whose higher bits are zero). -/
structure Bank where
  raddr : Nat
  rdata : Word
  rows : Memory
deriving DecidableEq, Repr

/-- `INIT(i, r)`, a BW(i)-bit value (R37). -/
def initRow (cfg : CoreConfig) (core i r : Nat) : Word := zext16 (bankWidth cfg i) (Config.init core i r)

/-- The `n`-th draw for bank `i`, a BW(i)-bit value (R36, R112). -/
def drawFor (cfg : CoreConfig) (core n i : Nat) : Word := zext16 (bankWidth cfg i) (Config.draw core n i)

/-- Bank `i` at construction: `raddr[i] = 0` (R35), `rdata[i]` a draw (R36), every row INIT (R37). -/
def initialBank (cfg : CoreConfig) (core i : Nat) : Bank := { raddr := 0, rdata := drawFor cfg core 0 i, rows := [] }

end Sys2Proof.Machine
end

