-- ==== Sys2Proof/Machine/State.lean ====
section
/-! DEFINITION. The state of one core (spec/10_state.md R20), the reasons a step can stop, and the state after reset. -/

namespace Sys2Proof.Machine

/-- What the environment presents next: the inputs of one clock edge (R28), or something that happens between edges. -/
inductive Input where
  /-- a clock edge that samples `bus_i` and the user port (R28, R66) -/
  | edge (bus : BusTxn) (user : UserWord)
  /-- the host calls a function (R70) -/
  | call (c : HostCall)
  /-- the platform resets the core: "an event between edges" (R182) -/
  | reset
  /-- the host asks for the transport's `write(addresses, data)` (R142) -/
  | hostWrite (addrs : List Nat) (data : List Int)
deriving DecidableEq, Repr

/-- What a host call gave back to its caller (R29, R70). -/
inductive Returned where
  | nothing
  /-- BANK_WIDTHS: the bank widths (R80) -/
  | widths (ws : List Nat)
  /-- WINDOW: `(START(i), STOP(i))` (R83) -/
  | window (start stop : Nat)
  /-- MAX_ADDR: a u16 (R144) -/
  | address (a : Word)
  /-- WORDS_TO_VALUE, or READ_FROM_USER_ADDR of a single address: an integer (R130, R140) -/
  | value (v : Nat)
  /-- VALUE_TO_WORDS: the words, least significant first (R132) -/
  | words (ws : List Nat)
  /-- READ_FROM_USER_ADDR of a sequence: one integer per address (R140) -/
  | values (vs : List Nat)
  /-- the call raised RangeError (E3, R163) and gave no value -/
  | rangeError
deriving DecidableEq, Repr

/-- The state. The first seven fields are the core: its configuration (constants, R20) and R20's registers and storage.
The others are the model's own and no state of the hardware (INVENTORY.md, State). -/
structure State where
  /-- DEPTH, WIDTH, BASE_ADDR: "constants of the core, not state" (R20); no step changes them (log entry 1) -/
  cfg : CoreConfig
  /-- which core's free values INIT and draws are meant (log entry 5) -/
  core : Nat
  /-- `stage[0]`, the newest (R21) -/
  stage0 : BusTxn
  /-- `stage[1]` (R21) -/
  stage1 : BusTxn
  /-- `stage[2]`, the oldest (R21) -/
  stage2 : BusTxn
  /-- the bus-output register, which the port `bus_o` carries at all times (R22) -/
  busO : BusTxn
  /-- bank `i` at position `i` (R20 items 3 and 4) -/
  banks : List Bank
  /-- the edge index `k` (R18, R24) -/
  edgeNo : Nat
  /-- how many draws have been used, so that each is fresh (log entry 4) -/
  draws : Nat
  /-- what the environment presents next, in order; at the end of the list every edge samples `IDLE | -` (log entry 2) -/
  inputs : List Input
  /-- the transport's replies to come, in order (log entry 8) -/
  replies : List (List Int)
  /-- the physical addresses last handed to the transport (log entry 7) -/
  sent : List Nat
  /-- what the last host call returned (log entry 7) -/
  ret : Returned
deriving DecidableEq, Repr

/-- Why the machine stops. A fault leaves no next state and is never cleared (R166). -/
inductive Fault where
  /-- E4: a side-channel write sampled with `user_addr >= DEPTH`, with the edge index and `user_addr` (R111, R164). Raised
  by every edge that samples it. Safe: the source gives no effect, the spec faults (D12). -/
  | userAddrOutOfRange (edge userAddr : Nat)
  /-- E5: a logical address outside `[0, DEPTH)`, with the address (R140, R165). Raised by READ_FROM_USER_ADDR. Safe (D16). -/
  | hostAddrOutOfRange (a : Int)
  /-- E6: the transport's reply has another length than the request, with the two lengths (R140, R165). Raised by
  READ_FROM_USER_ADDR. Safe (D18). -/
  | transportProtocol (sent got : Nat)
  /-- A stuck state, named: "a transport that never replies leaves the host call stuck" (U10). Raised by READ_FROM_USER_ADDR
  when no reply is to come. Safe: no claim is made of what follows (log entry 8). -/
  | transportNeverReplies
deriving DecidableEq, Repr

/-- Why there is no meaning. -/
inductive Refusal where
  /-- an instruction the model has not reached; no arm says so any more. Safe. -/
  | notModelled (mnemonic : String)
  /-- the transport's `write` counterpart, which "is not modelled; a model refuses it" (R142, U4). Raised by step. Safe. -/
  | hostWriteUnimplemented
deriving DecidableEq, Repr

/-- `S_0` of a core constructed from `cfg` (R34 to R37, R180 step 3): stages and `bus_o` all zero, each bank as at
construction, edge 0 next. -/
def State.initial (cfg : CoreConfig) (core : Nat) : State :=
  { cfg := cfg, core := core
    stage0 := BusTxn.idle, stage1 := BusTxn.idle, stage2 := BusTxn.idle, busO := BusTxn.idle
    banks := (List.range (bankCount cfg)).map (initialBank cfg core)
    edgeNo := 0, draws := 1, inputs := [], replies := [], sent := [], ret := .nothing }

/-- The machine right after reset: construction "is the only reset the source describes" (R38), here of a core of
configuration K33 (DESIGN CHOICE, log entry 1). -/
def State.reset : State := State.initial CoreConfig.k33 0

end Sys2Proof.Machine
end

