-- ==== Sys2Proof/Machine/Ops.lean ====
section
/-! DEFINITION. The named operations over the registers and the storage, and the one clocked step built from them
(spec/41_pipeline.md R100 to R105, R110 to R112; spec/70_reset_and_hazards.md R182).

The block has no trap, no saved state and no trap return (R167, R168), so there is no operation for taking an exception: a
fault ends the run (R166). -/

namespace Sys2Proof.Machine

/-- The answer of an operation of one core. -/
abbrev Answer := Host.Outcome State Fault Refusal

/-- Bank `i` of the core. A bank the state does not list stands as at construction (log entry 12); in every state met in a
run all BANK_COUNT banks are listed. -/
def State.bank (s : State) (i : Nat) : Bank := s.banks.getD i (initialBank s.cfg s.core i)

/-- `MemRead(i, r)` (R17): the last value written to row `r` of bank `i`, or `INIT(i, r)` if there was none (R52). -/
def State.memRead (s : State) (i r : Nat) : Word :=
  ((s.bank i).rows.lookup r).getD (initRow s.cfg s.core i r)

/-- The draw `d_k(i)` of this edge (R100, R112). -/
def State.drawNow (s : State) (i : Nat) : Word := drawFor s.cfg s.core s.draws i

/-- Egress (R102): what `bus_o` is loaded with, which is stage 2, with `data` replaced by `zext_16(S.rdata[i])` if stage 2
is a valid read owned by bank `i`. -/
def egress (s : State) : BusTxn :=
  if isRead s.stage2 then
    match selectBank s.cfg s.stage2.addr.toNat with
    | some i => { s.stage2 with data := zext16 (bankWidth s.cfg i) (s.bank i).rdata }
    | none => s.stage2
  else s.stage2

/-- Launch (R104): the next value of `raddr[i]`. -/
def nextRaddr (b : BusTxn) (s : State) (i : Nat) : Nat :=
  if launches s.cfg i b then b.addr.toNat - windowStart s.cfg i else (s.bank i).raddr

/-- The side channel writes the row that bank `i`'s read port latches at this edge (R112). -/
def collides (u : UserWord) (s : State) (i : Nat) : Bool := u.we && decide (u.addr = (s.bank i).raddr)

/-- Storage read port (R105, R112): the next value of `rdata[i]`. -/
def nextRdata (u : UserWord) (s : State) (i : Nat) : Word :=
  if collides u s i then s.drawNow i else s.memRead i (s.bank i).raddr

/-- Side-channel write port (R110, R113): the next contents of bank `i`. -/
def nextRows (u : UserWord) (s : State) (i : Nat) : Memory :=
  if u.we then (s.bank i).rows.write u.addr (userSlice s.cfg i u.data) else (s.bank i).rows

/-- Bank `i` after the edge. -/
def nextBank (b : BusTxn) (u : UserWord) (s : State) (i : Nat) : Bank :=
  { raddr := nextRaddr b s i, rdata := nextRdata u s i, rows := nextRows u s i }

/-- `S_{k+1}` of an edge that does not fault: every right-hand side reads `S_k` (R16, R100). -/
def edgeState (b : BusTxn) (u : UserWord) (s : State) : State :=
  { s with
    stage0 := b, stage1 := s.stage0, stage2 := s.stage1
    busO := egress s
    banks := (List.range (bankCount s.cfg)).map (nextBank b u s)
    edgeNo := s.edgeNo + 1, draws := s.draws + 1 }

/-- The user-port guard (R111): a side-channel write of a row that does not exist. -/
def userOutOfRange (cfg : CoreConfig) (u : UserWord) : Bool := u.we && decide (cfg.depth ≤ u.addr)

/-- One clock edge that samples `b` and `u` (R100). The guard "comes before any update" (R169 item 3). -/
def clockEdge (b : BusTxn) (u : UserWord) (s : State) : Answer :=
  if userOutOfRange s.cfg u then .fault (.userAddrOutOfRange s.edgeNo u.addr) else .next (edgeState b u s)

/-- Successive clock edges, each sampling the next pair of words, up to the first fault. -/
def clockEdges : List (BusTxn × UserWord) → State → Answer
  | [], s => .next s
  | (b, u) :: rest, s =>
    match clockEdge b u s with
    | .next t => clockEdges rest t
    | .fault f => .fault f
    | .refused r => .refused r

/-- The bus word that `bus_i` presents to the next edge. -/
def State.busNow (s : State) : BusTxn :=
  match s.inputs with
  | .edge b _ :: _ => b
  | _ => BusTxn.idle

/-- The user-port word that the side channel presents to the next edge. -/
def State.userNow (s : State) : UserWord :=
  match s.inputs with
  | .edge _ u :: _ => u
  | _ => UserWord.nop

/-- The words of the edge at hand are taken off the inputs. -/
def State.takeEdge (s : State) : State :=
  match s.inputs with
  | .edge _ _ :: rest => { s with inputs := rest }
  | _ => s

/-- The host call at hand is taken off the inputs. -/
def State.takeCall (s : State) : State :=
  match s.inputs with
  | .call _ :: rest => { s with inputs := rest }
  | _ => s

/-- The platform reset at hand is taken off the inputs. -/
def State.takeReset (s : State) : State :=
  match s.inputs with
  | .reset :: rest => { s with inputs := rest }
  | _ => s

/-- The edge at which bus word `b` is sampled, with the user-port word that the side channel presents at that edge: "each
edge carries one bus kind and one user-port kind" (R66; log entry 6). -/
def sampleBus (b : BusTxn) (s : State) : Answer := clockEdge b s.userNow s.takeEdge

/-- The edge at which user-port word `u` is sampled, with the bus word that `bus_i` presents at that edge (R66; log entry
6). -/
def sampleUser (u : UserWord) (s : State) : Answer := clockEdge s.busNow u s.takeEdge

/-- A host call that returns `v`: no state of the core is involved (R136, R166); the caller gets `v`. -/
def returnToHost (v : Returned) (s : State) : Answer := .next { s.takeCall with ret := v }

/-- The platform reset (R182): stages and `bus_o` as at construction, every `raddr[i]` 0, every `rdata[i]` a draw, storage
unchanged. -/
def platformReset (s : State) : State :=
  { s with
    stage0 := BusTxn.idle, stage1 := BusTxn.idle, stage2 := BusTxn.idle, busO := BusTxn.idle
    banks := (List.range (bankCount s.cfg)).map
      (fun i => { raddr := 0, rdata := s.drawNow i, rows := (s.bank i).rows })
    draws := s.draws + 1 }

/-- Logical row `r` as one integer: `mem[BANK_COUNT-1][r] ++ ... ++ mem[0][r]` (R27), bank `i` at bit `16*i` (R43). -/
def logicalRow (s : State) (r : Nat) : Nat :=
  ((List.range (bankCount s.cfg)).map (fun i => (s.memRead i r).toNat * 2 ^ (16 * i))).sum

end Sys2Proof.Machine
end

