-- ==== Sys2Proof/Machine/Bus.lean ====
section
/-! DEFINITION. The meanings of the five bus transaction kinds (spec/41_pipeline.md R106 to R109). Each is one clock edge
that samples the kind's bus word: the launch and egress tests of R104 and R102 are part of the edge, so a kind's effect at
the later edges comes from the word standing in the stages. -/

namespace Sys2Proof.Machine

/-- BUS_IDLE (R109): `valid = 0`; "nothing but the shift happens". -/
def execBusIdle (readWrite : Bool) (addr data : Word) (s : State) : Answer :=
  sampleBus { addr := addr, data := data, readWrite := readWrite, valid := false } s

/-- BUS_READ_OWNED (R106): `stage[0] <- b ; raddr[i] <- r`. -/
def execBusReadOwned (addr data : Word) (s : State) : Answer :=
  sampleBus { addr := addr, data := data, readWrite := false, valid := true } s

/-- BUS_READ_UNOWNED (R108): no bank owns the address, so no `raddr` changes. -/
def execBusReadUnowned (addr data : Word) (s : State) : Answer :=
  sampleBus { addr := addr, data := data, readWrite := false, valid := true } s

/-- BUS_WRITE_OWNED (R107): passes through; "no storage row changes because of `b`" (D11). -/
def execBusWriteOwned (addr data : Word) (s : State) : Answer :=
  sampleBus { addr := addr, data := data, readWrite := true, valid := true } s

/-- BUS_WRITE_UNOWNED (R107): passes through. -/
def execBusWriteUnowned (addr data : Word) (s : State) : Answer :=
  sampleBus { addr := addr, data := data, readWrite := true, valid := true } s

end Sys2Proof.Machine
end

