-- ==== Sys2Proof/Machine/Codec.lean ====
section
/-! DEFINITION. The 16-bit word codec (spec/42_word_codec.md R130 to R136): "stateless pure functions". `none` is
RangeError, which carries no value (R163, D23). -/

namespace Sys2Proof.Machine

/-- The accepted words: "The union is `[-32768, 65535]`" (R131). -/
def wordOk (w : Int) : Bool := decide (-32768 ≤ w) && decide (w ≤ 65535)

/-- The 16-bit pattern of an accepted word: `w`, or `w + 65536` for a negative one (R130, D13). -/
def unsignedWord (w : Int) : Nat := (if w < 0 then w + 65536 else w).toNat

/-- `u_{n-1} ++ ... ++ u_1 ++ u_0`, the sum of `u_j * 2^(16*j)` (R130): `words[0]` is least significant (R135). -/
def concatWords : List Nat → Nat
  | [] => 0
  | u :: us => u + 2 ^ 16 * concatWords us

/-- `words_to_value` (R130): every word is checked before any result. -/
def wordsToValue (ws : List Int) : Option Nat :=
  if ws.all wordOk then some (concatWords (ws.map unsignedWord)) else none

/-- `value_to_words` (R132): RangeError for a negative value or one that needs more than `16 * n` bits (D14); else the
16-bit chunks, least significant first. -/
def valueToWords (v : Int) (n : Nat) : Option (List Nat) :=
  if v < 0 then none
  else if 2 ^ (16 * n) ≤ v then none
  else some ((List.range n).map (fun j => slice v.toNat (16 * j) 16))

/-- What a codec call gives its caller: RangeError is "fatal to the calling operation only" (R136), so the run goes on. -/
def returnedValue : Option Nat → Returned
  | some v => .value v
  | none => .rangeError

/-- As `returnedValue`, for a sequence of words. -/
def returnedWords : Option (List Nat) → Returned
  | some ws => .words ws
  | none => .rangeError

/-- WORDS_TO_VALUE (R130). -/
def execWordsToValue (ws : List Int) (s : State) : Answer := returnToHost (returnedValue (wordsToValue ws)) s

/-- The answer of VALUE_TO_WORDS (R132). For an `n_words` that is no u32, RangeError for a negative value as for every other
`n_words`, else a free value (DESIGN CHOICE, log entry 10). -/
def wordsOf (v : Int) (n : Nat) : Option (List Nat) :=
  if n < 2 ^ 32 then valueToWords v n
  else if v < 0 then none
  else Config.wordsOutside v n

/-- VALUE_TO_WORDS (R132). -/
def execValueToWords (v : Int) (n : Nat) (s : State) : Answer := returnToHost (returnedWords (wordsOf v n)) s

end Sys2Proof.Machine
end

