-- ==== Sys2Proof/Machine/Decoder.lean ====
section
/-! DEFINITION. The meanings of the operations on the configuration: BANK_WIDTHS (spec/40_address_decoder.md R80), WINDOW
(R83), MAX_ADDR (spec/43_host_read.md R144). -/

namespace Sys2Proof.Machine

/-- BANK_WIDTHS (R80): "Input: `width > 0`. Output: ordered sequence of bank widths." For a width of 0 the call returns a free
value (DESIGN CHOICE, log entry 10). The host may call it between any edges, any number of times: DESIGN CHOICE (log entry 26),
since R70 has it evaluated once, at construction. -/
def execBankWidths (width : Nat) (s : State) : Answer :=
  returnToHost (.widths (if 1 ≤ width then bankWidths width else Config.widthsOfZero)) s

/-- `(START(i), STOP(i))` of a bank index `0 <= i < BANK_COUNT` (R83); for another index a free value (DESIGN CHOICE, log entry
10). -/
def windowOf (cfg : CoreConfig) (i : Nat) : Nat × Nat :=
  if i < bankCount cfg then (windowStart cfg i, windowStop cfg i) else Config.windowOutside cfg i

/-- WINDOW (R83). The host may call it between any edges, any number of times: DESIGN CHOICE (log entry 26), since R70 has it
evaluated once, at construction, and R32 calls `max_addr()` the only query of the configuration. -/
def execWindow (i : Nat) (s : State) : Answer :=
  returnToHost (.window (windowOf s.cfg i).1 (windowOf s.cfg i).2) s

/-- MAX_ADDR (R144): "returns `MAX_ADDR = BASE_ADDR + DEPTH * BANK_COUNT - 1` as a `u16`"; it reads no state. -/
def execMaxAddr (s : State) : Answer := returnToHost (.address (BitVec.ofNat 16 (maxAddr s.cfg))) s

end Sys2Proof.Machine
end

