-- ==== Sys2Proof/Machine/HostRead.lean ====
section
/-! DEFINITION. The host read interface (spec/43_host_read.md R140 to R147). The transport is an external collaborator
(R142): its replies to come are data in State (log entry 8). -/

namespace Sys2Proof.Machine

/-- `L := [x] if single else x` (R140). -/
def addrList : Addrs → List Int
  | .one a => [a]
  | .many as => as

/-- A logical address outside `[0, DEPTH)` (R140, D16). -/
def addrOutOfRange (cfg : CoreConfig) (a : Int) : Bool := decide (a < 0) || decide ((cfg.depth : Int) ≤ a)

/-- The physical addresses of one logical address: `a + BASE_ADDR + i * DEPTH` for `i` in `0 .. BANK_COUNT-1` (R140). -/
def physicalAddrs (cfg : CoreConfig) (a : Nat) : List Nat :=
  (List.range (bankCount cfg)).map (fun i => a + cfg.base + i * cfg.depth)

/-- All physical addresses of a request, "grouped by address not by bank" (R141). -/
def requestAddrs (cfg : CoreConfig) (l : List Int) : List Nat := l.flatMap (fun a => physicalAddrs cfg a.toNat)

/-- `W[j*BANK_COUNT .. (j+1)*BANK_COUNT - 1]` for `j` in `0 .. count-1` (R140): one chunk per logical address. -/
def chunks (size : Nat) : (count : Nat) → List Int → List (List Int)
  | 0, _ => []
  | count + 1, ws => ws.take size :: chunks size count (ws.drop size)

/-- Every chunk through `words_to_value`; RangeError of any of them propagates (R140, R163). -/
def chunkValues : List (List Int) → Option (List Nat)
  | [] => some []
  | c :: cs =>
    match wordsToValue c, chunkValues cs with
    | some v, some vs => some (v :: vs)
    | _, _ => none

/-- `R[0] if single else R` (R140). -/
def readResult (cfg : CoreConfig) (x : Addrs) (reply : List Int) : Returned :=
  match x with
  | .one _ => returnedValue (wordsToValue (reply.take (bankCount cfg)))
  | .many as =>
    match chunkValues (chunks (bankCount cfg) as.length reply) with
    | some vs => .values vs
    | none => .rangeError

/-- READ_FROM_USER_ADDR (R140): address checks, then the transport call, then the length check, then the codec (R169 item
4). A transport with no reply to come leaves the call stuck (U10). -/
def execReadFromUserAddr (x : Addrs) (s : State) : Answer :=
  match (addrList x).find? (addrOutOfRange s.cfg) with
  | some a => .fault (.hostAddrOutOfRange a)
  | none =>
    match s.replies with
    | [] => .fault .transportNeverReplies
    | reply :: rest =>
      if reply.length = (requestAddrs s.cfg (addrList x)).length then
        .next { s.takeCall with
          replies := rest, sent := requestAddrs s.cfg (addrList x), ret := readResult s.cfg x reply }
      else .fault (.transportProtocol (requestAddrs s.cfg (addrList x)).length reply.length)

/-- A transport that performs each physical address as one bus read of this core with idle words after it, and returns
`S_{t+4}.bus_o.data` (R145): the words it returns and the core after its reads. "The model does not define how the transport
drives the bus" (R142): READ_FROM_USER_ADDR does not use this; statements about R145 do. -/
def isolatedReads : List Nat → State → Option (List Int × State)
  | [], s => some ([], s)
  | p :: ps, s =>
    match clockEdges [(BusTxn.read (BitVec.ofNat 16 p), UserWord.nop), (BusTxn.idle, UserWord.nop),
        (BusTxn.idle, UserWord.nop), (BusTxn.idle, UserWord.nop)] s with
    | .next t =>
      match isolatedReads ps t with
      | some (ws, t') => some ((t.busO.data.toNat : Int) :: ws, t')
      | none => none
    | _ => none

end Sys2Proof.Machine
end

