-- ==== Sys2Proof/Machine/UserPort.lean ====
section
/-! DEFINITION. The meanings of the two user-port kinds (spec/41_pipeline.md R110, R111, R113). -/

namespace Sys2Proof.Machine

/-- UPORT_WRITE (R110): at the edge that samples it, row `addr` of every bank takes its slice of `data`; `addr >= DEPTH`
faults (R111). -/
def execUportWrite (addr data : Nat) (s : State) : Answer :=
  sampleUser { addr := addr, data := data, we := true } s

/-- UPORT_NOP (R113): no storage write; `addr` and `data` are ignored. -/
def execUportNop (addr data : Nat) (s : State) : Answer :=
  sampleUser { addr := addr, data := data, we := false } s

end Sys2Proof.Machine
end

