-- ==== Sys2Proof/Machine/Dispatch.lean ====
section
/-! DEFINITION. What each instruction does: one arm per constructor of Instr, each one call of its meaning. -/

namespace Sys2Proof.Machine

def exec (i : Instr) (s : State) : Host.Outcome State Fault Refusal :=
  match i with
  | .busIdle rw a d => Sys2Proof.Machine.execBusIdle rw a d s
  | .busReadOwned a d => Sys2Proof.Machine.execBusReadOwned a d s
  | .busReadUnowned a d => Sys2Proof.Machine.execBusReadUnowned a d s
  | .busWriteOwned a d => Sys2Proof.Machine.execBusWriteOwned a d s
  | .busWriteUnowned a d => Sys2Proof.Machine.execBusWriteUnowned a d s
  | .uportWrite a d => Sys2Proof.Machine.execUportWrite a d s
  | .uportNop a d => Sys2Proof.Machine.execUportNop a d s
  | .bankWidths w => Sys2Proof.Machine.execBankWidths w s
  | .window n => Sys2Proof.Machine.execWindow n s
  | .maxAddr => Sys2Proof.Machine.execMaxAddr s
  | .wordsToValue ws => Sys2Proof.Machine.execWordsToValue ws s
  | .valueToWords v n => Sys2Proof.Machine.execValueToWords v n s
  | .readFromUserAddr x => Sys2Proof.Machine.execReadFromUserAddr x s

end Sys2Proof.Machine
end

