-- ==== Sys2Proof/Machine/Step.lean ====
section
/-! DEFINITION. One step of the machine: what the environment presents next is read, decoded and run. -/

namespace Sys2Proof.Machine

/-- One step. An edge runs the instruction of the bus word it samples, and with it the user-port word of the same edge (R66);
with no input left the edge samples `IDLE | -` (log entry 2). A host call runs its function; a platform reset is an event
between edges (R182); a host write is refused (R142). -/
def step (s : State) : Host.Outcome State Fault Refusal :=
  match s.inputs with
  | [] => exec (decodeBus s.cfg BusTxn.idle) s
  | .edge b _ :: _ => exec (decodeBus s.cfg b) s
  | .call c :: _ => exec (decodeCall c) s
  | .reset :: _ => .next (platformReset s.takeReset)
  | .hostWrite _ _ :: _ => .refused .hostWriteUnimplemented

/-- `s` with the words of its next edge: the edge at the head of the inputs is replaced; where no edge is at the head, one is
put there. -/
def State.withEdge (s : State) (b : BusTxn) (u : UserWord) : State :=
  match s.inputs with
  | .edge _ _ :: rest => { s with inputs := .edge b u :: rest }
  | is => { s with inputs := .edge b u :: is }

/-- `s` with the instruction of an opcode-table word on the port where the next edge samples it (log entry 11); the other
port's word of that edge stays. A number of bits that names no port changes nothing. -/
def State.withFetchWord (s : State) (nbits w : Nat) : State :=
  match fetchedOfBits nbits w with
  | some (.bus w) => s.withEdge (BusTxn.unpack (BitVec.ofNat 34 w)) s.userNow
  | some (.user w) => s.withEdge s.busNow (UserWord.unpack s.cfg w)
  | _ => s

end Sys2Proof.Machine
end

