-- ==== Sys2Proof/Machine/Chain.lean ====
section
/-! DEFINITION. Several cores on one bus (spec/41_pipeline.md R120, R123; spec/60_exceptions.md R175): the cores of a chain,
`C_1` first, stepped together on one clock. -/

namespace Sys2Proof.Machine

/-- One edge of a chain: `C_1` samples `b`, and `C_{j+1}` samples `S^{C_j}_k.bus_o`, "the value of `C_j`'s output register
before the edge" (R120). Each core has its own user-port word; a core given none samples UPORT_NOP (log entry 15). Where the
side channels of several cores are out of range at one edge, the fault reported is that of the core nearest `C_1`: DESIGN
CHOICE (log entry 25), since no rule orders the faults of different cores (R169 orders those of one). -/
def chainEdge (b : BusTxn) : List UserWord → List State → Host.Outcome (List State) Fault Refusal
  | _, [] => .next []
  | us, c :: cs =>
    match clockEdge b (us.headD UserWord.nop) c with
    | .next c' =>
      match chainEdge c.busO us.tail cs with
      | .next cs' => .next (c' :: cs')
      | .fault f => .fault f
      | .refused r => .refused r
    | .fault f => .fault f
    | .refused r => .refused r

/-- Successive edges of a chain: at each, the word the host drives on `bus_i` of `C_1` and the user-port words. -/
def chainEdges : List (BusTxn × List UserWord) → List State → Host.Outcome (List State) Fault Refusal
  | [], cs => .next cs
  | (b, us) :: rest, cs =>
    match chainEdge b us cs with
    | .next cs' => chainEdges rest cs'
    | .fault f => .fault f
    | .refused r => .refused r

/-- What the host receives: `bus_o` of `C_N` (R120). -/
def chainOut : List State → Option BusTxn
  | [] => none
  | [c] => some c.busO
  | _ :: c :: cs => chainOut (c :: cs)

end Sys2Proof.Machine
end

