-- ==== Sys2Proof/Machine/Construct.lean ====
section
/-! DEFINITION. Construction of a core (spec/70_reset_and_hazards.md R180) and the numbered error kinds
(spec/60_exceptions.md R160 to R165). -/

namespace Sys2Proof.Machine

/-- The error kinds of 60_exceptions.md section 1; the codes are the spec's own (D19). -/
inductive ErrorKind where
  | configError
  | configAddressOverflow
  | unrecognizedOption
  | rangeError
  | userAddrOutOfRange
  | hostAddrOutOfRange
  | transportProtocol
deriving DecidableEq, Repr

/-- The code of an error kind. -/
def ErrorKind.code : ErrorKind → String
  | .configError => "E1"
  | .configAddressOverflow => "E2"
  | .unrecognizedOption => "W1"
  | .rangeError => "E3"
  | .userAddrOutOfRange => "E4"
  | .hostAddrOutOfRange => "E5"
  | .transportProtocol => "E6"

/-- The error kind of a fault; a call that is stuck (U10) has none. -/
def Fault.kind : Fault → Option ErrorKind
  | .userAddrOutOfRange _ _ => some .userAddrOutOfRange
  | .hostAddrOutOfRange _ => some .hostAddrOutOfRange
  | .transportProtocol _ _ => some .transportProtocol
  | .transportNeverReplies => none

/-- What a configuration mapping holds under one key: "missing", "non-integer", or an integer (R160). -/
inductive RawValue where
  | missing
  | nonInteger
  | integer (n : Int)
deriving DecidableEq, Repr

/-- What construction gives: a core, or the refusal of one (R160, R161). -/
inductive Constructed where
  | core (s : State)
  | refused (e : ErrorKind)
deriving DecidableEq, Repr

/-- The value of a key that R10 part 1 accepts: an integer `>= 1`. -/
def RawValue.positive : RawValue → Option Nat
  | .integer n => if 1 ≤ n then some n.toNat else none
  | _ => none

/-- Construction (R180): R10 part 1, else ConfigError; then part 2, else ConfigAddressOverflow; then `S_0`. Other keys of the
mapping change nothing and are not taken (R11, D24). `core` names the free values of this core (log entry 5). -/
def construct (depth width : RawValue) (base core : Nat) : Constructed :=
  match depth.positive, width.positive with
  | some d, some w =>
    if h : (1 ≤ d ∧ 1 ≤ w) ∧ base + d * ((w + 15) / 16) - 1 ≤ 0xFFFF then
      .core (State.initial ⟨d, w, base, h.1.1, h.1.2, h.2⟩ core)
    else .refused .configAddressOverflow
  | _, _ => .refused .configError

end Sys2Proof.Machine
end

