-- ==== Sys2Proof/Machine/Script.lean ====
section
/-! DEFINITION. The spec's transaction script (spec/30_encoding.md R71, D20): what each spelling of a line stands for. -/

namespace Sys2Proof.Machine

/-- The bus spellings of R71: `IDLE`, `RD <a>`, `RD <a> data=<d>`, `WR <a>, <d>`, `RAW <w>`. -/
inductive BusOp where
  | idle
  | rd (a : Word)
  | rdData (a d : Word)
  | wr (a d : Word)
  | raw (w : BitVec 34)
deriving DecidableEq, Repr

/-- The user-port spellings of R71: `-` and `UW <r>, <v>`. -/
inductive UserOp where
  | dash
  | uw (r v : Nat)
deriving DecidableEq, Repr

/-- The bus word of a spelling (R71). -/
def BusOp.txn : BusOp → BusTxn
  | .idle => BusTxn.idle
  | .rd a => BusTxn.read a
  | .rdData a d => { addr := a, data := d, readWrite := false, valid := true }
  | .wr a d => { addr := a, data := d, readWrite := true, valid := true }
  | .raw w => BusTxn.unpack w

/-- The user-port word of a spelling (R71). -/
def UserOp.word : UserOp → UserWord
  | .dash => UserWord.nop
  | .uw r v => { addr := r, data := v, we := true }

/-- A line `edge <k>: <bus-op> | <user-op>` as an input. -/
def scriptLine (b : BusOp) (u : UserOp) : Input := .edge b.txn u.word

end Sys2Proof.Machine
end

