-- ==== Sys2Proof/Safety.lean ====
section
/-! DEFINITION. What counts as a well-kept state and a disciplined environment, and the frame of an edge, in the words the
statements use. -/

namespace Sys2Proof.Machine

/-- Bank `i` is as the spec says it is in every reachable state: `raddr[i] < DEPTH` (R25), `rdata[i]` and every row of BW(i)
bits (R26, R27), row numbers below DEPTH and in the canonical order of Memory.lean. -/
structure Bank.Ok (cfg : CoreConfig) (i : Nat) (k : Bank) : Prop where
  raddr_lt : k.raddr < cfg.depth
  rdata_lt : k.rdata.toNat < 2 ^ bankWidth cfg i
  rows_wf : Memory.wf k.rows
  row_lt : ∀ p ∈ k.rows, p.1 < cfg.depth
  value_lt : ∀ p ∈ k.rows, p.2.toNat < 2 ^ bankWidth cfg i

/-- The invariant of the machine: all BANK_COUNT banks are there (R20) and each is `Bank.Ok`. -/
structure State.Inv (s : State) : Prop where
  banks_length : s.banks.length = bankCount s.cfg
  bank_ok : ∀ i, i < bankCount s.cfg → Bank.Ok s.cfg i (s.bank i)

/-- An input that meets the duties of R146 and R184: a clock edge whose side-channel write, if any, is within `[0, DEPTH)`,
or a platform reset. -/
def Input.disciplined (cfg : CoreConfig) : Input → Prop
  | .edge _ u => userOutOfRange cfg u = false
  | .reset => True
  | _ => False

/-- The frame of one clock edge that samples `b` and `u`, less what it does to `raddr` and `rdata`: the shift and egress
registers, every row the user port does not write, the configuration, and the model's own fields. -/
structure EdgeFrame (b : BusTxn) (u : UserWord) (s t : State) : Prop where
  stage0 : t.stage0 = b
  stage1 : t.stage1 = s.stage0
  stage2 : t.stage2 = s.stage1
  busO : t.busO = egress s
  rows : ∀ i r, i < bankCount s.cfg → (u.we = false ∨ r ≠ u.addr) → t.memRead i r = s.memRead i r
  cfg : t.cfg = s.cfg
  core : t.core = s.core
  edgeNo : t.edgeNo = s.edgeNo + 1
  draws : t.draws = s.draws + 1
  inputs : t.inputs = s.takeEdge.inputs
  replies : t.replies = s.replies
  sent : t.sent = s.sent
  ret : t.ret = s.ret

/-- What an edge does to `rdata` (R105, R112): each read port latches the row `raddr` named before the edge, or a draw. -/
def Latches (u : UserWord) (s t : State) : Prop :=
  ∀ i, i < bankCount s.cfg → (t.bank i).rdata =
    if u.we = true ∧ u.addr = (s.bank i).raddr then s.drawNow i else s.memRead i (s.bank i).raddr

/-- The user port writes row `r` at the edge that samples `u`. -/
def WritesRow (u : UserWord) (r : Nat) : Prop := u.we = true ∧ u.addr = r

/-- The row of bank `i` that an address of its window names (R86). -/
def rowOf (cfg : CoreConfig) (i : Nat) (a : Word) : Nat := a.toNat - windowStart cfg i

/-- A word the codec accepts (R131). -/
def IsCodecWord (w : Int) : Prop := -32768 ≤ w ∧ w ≤ 65535

/-- A logical address of the core (R42, R140). -/
def IsLogicalAddr (cfg : CoreConfig) (a : Int) : Prop := 0 ≤ a ∧ a < cfg.depth

/-- No `raddr` changes. -/
def KeepsRaddr (s t : State) : Prop := ∀ i, i < bankCount s.cfg → (t.bank i).raddr = (s.bank i).raddr

/-- After the next three edges that `t` takes, whatever they sample, `bus_o` holds `b`: for a word sampled at edge `t`, in
`S_{t+4}` (R18, D1). -/
def AppearsThreeEdgesLater (b : BusTxn) (t : State) : Prop :=
  ∀ (p1 p2 p3 : BusTxn × UserWord) (t' : State), clockEdges [p1, p2, p3] t = .next t' → t'.busO = b

end Sys2Proof.Machine
end

