-- ==== Sys2Proof/Certificates/Slice0/Obligations.lean ====
section
/-! DEFINITION. The statements for the provers, each from the rules of spec/ its docstring cites. A statement about a draw or
about INIT holds for every value of it: `Config.draw` and `Config.init` have no body. -/

open Sys2Proof Sys2Proof.Machine

/-! ## Configuration, partitioner, decoder, selector -/

/-- R82: the widths of the banks sum to the row's width, each is in {1..16}, and only the last may be below 16. -/
def Obligations.BankWidthsPartitionTheRow : Prop :=
  ∀ w : Nat, 1 ≤ w →
    (bankWidths w).sum = w ∧ (∀ x ∈ bankWidths w, 1 ≤ x ∧ x ≤ 16) ∧
    ∀ i, i + 1 < (bankWidths w).length → (bankWidths w)[i]? = some 16

/-- R81: the number of banks is `ceil(WIDTH / 16)`, and the closed form of BW. -/
def Obligations.BankCountIsCeilOfWidth : Prop :=
  ∀ cfg : CoreConfig,
    cfg.width ≤ 16 * bankCount cfg ∧ (∀ n, cfg.width ≤ 16 * n → bankCount cfg ≤ n) ∧
    (∀ i, i + 1 < bankCount cfg → bankWidth cfg i = 16) ∧
    bankWidth cfg (bankCount cfg - 1) = cfg.width - 16 * (bankCount cfg - 1) ∧
    1 ≤ bankWidth cfg (bankCount cfg - 1) ∧ bankWidth cfg (bankCount cfg - 1) ≤ 16

/-- R9: AW is the least k with `DEPTH <= 2^k` (0 for `DEPTH = 1`, the spec's own decision D22). -/
def Obligations.AddrWidthIsCeilLog2 : Prop :=
  ∀ cfg : CoreConfig, cfg.depth ≤ 2 ^ addrWidth cfg ∧ ∀ k, cfg.depth ≤ 2 ^ k → addrWidth cfg ≤ k

/-- R85, R87: the banks' windows are disjoint and their union is exactly `[BASE_ADDR, MAX_ADDR]`; K33's MAX_ADDR is 111. -/
def Obligations.WindowsTileTheOwningWindow : Prop :=
  (∀ (cfg : CoreConfig) (i j a : Nat), i < bankCount cfg → j < bankCount cfg → i ≠ j →
    owns cfg i a = true → owns cfg j a = false) ∧
  (∀ (cfg : CoreConfig) (a : Nat),
    (∃ i, i < bankCount cfg ∧ owns cfg i a = true) ↔
      (cfg.base ≤ a ∧ a ≤ cfg.base + cfg.depth * bankCount cfg - 1)) ∧
  maxAddr CoreConfig.k33 = 111

/-- R86: the owning bank and the row of an address of the window, and conversely. -/
def Obligations.OwnedAddressDecodesToBankAndRow : Prop :=
  (∀ (cfg : CoreConfig) (a : Nat), cfg.base ≤ a → a ≤ maxAddr cfg →
    selectBank cfg a = some ((a - cfg.base) / cfg.depth) ∧
    (a - cfg.base) / cfg.depth < bankCount cfg ∧
    a - windowStart cfg ((a - cfg.base) / cfg.depth) = (a - cfg.base) % cfg.depth ∧
    (a - cfg.base) % cfg.depth < cfg.depth ∧
    a = windowStart cfg ((a - cfg.base) / cfg.depth) + (a - cfg.base) % cfg.depth) ∧
  (∀ (cfg : CoreConfig) (i r : Nat), i < bankCount cfg → r < cfg.depth →
    inWindow cfg (windowStart cfg i + r) = true ∧ selectBank cfg (windowStart cfg i + r) = some i)

/-- R88: the bank selector is one-hot, and selects the owner exactly where there is one. -/
def Obligations.BankSelectorIsOneHot : Prop :=
  (∀ (cfg : CoreConfig) (i j a : Nat), i < bankCount cfg → j < bankCount cfg →
    owns cfg i a = true → owns cfg j a = true → i = j) ∧
  (∀ (cfg : CoreConfig) (i a : Nat), selectBank cfg a = some i ↔ (i < bankCount cfg ∧ owns cfg i a = true)) ∧
  (∀ (cfg : CoreConfig) (a : Nat), selectBank cfg a = none ↔ inWindow cfg a = false)

/-! ## Construction and reset -/

/-- R160, R161, R169 item 1: ConfigError comes first, then ConfigAddressOverflow, then the core of that configuration (the
second error and the order are the spec's own decisions D10 and D19). -/
def Obligations.ConstructionChecksInOrder : Prop :=
  (∀ (v w : RawValue) (base core : Nat),
    (v = .missing ∨ v = .nonInteger ∨ ∃ n : Int, n ≤ 0 ∧ v = .integer n) →
    construct v w base core = .refused .configError ∧ construct w v base core = .refused .configError) ∧
  (∀ d w base core : Nat, 1 ≤ d → 1 ≤ w → 0xFFFF < base + d * ((w + 15) / 16) - 1 →
    construct (.integer d) (.integer w) base core = .refused .configAddressOverflow) ∧
  (∀ (cfg : CoreConfig) (core : Nat),
    construct (.integer cfg.depth) (.integer cfg.width) cfg.base core = .core (State.initial cfg core))

/-- R34, R35, R37: the stages, `bus_o`, every `raddr` and the storage of every core at construction (the spec's own decisions
D7 and D8; INIT is a free value, log entry 3). -/
def Obligations.ConstructionValues : Prop :=
  ∀ (cfg : CoreConfig) (core : Nat),
    (State.initial cfg core).stage0 = { addr := 0, data := 0, readWrite := false, valid := false } ∧
    (State.initial cfg core).stage1 = { addr := 0, data := 0, readWrite := false, valid := false } ∧
    (State.initial cfg core).stage2 = { addr := 0, data := 0, readWrite := false, valid := false } ∧
    (State.initial cfg core).busO = { addr := 0, data := 0, readWrite := false, valid := false } ∧
    (State.initial cfg core).banks.length = bankCount cfg ∧
    ∀ i, i < bankCount cfg → ((State.initial cfg core).bank i).raddr = 0 ∧
      ∀ r, r < cfg.depth → (State.initial cfg core).memRead i r = zext16 (bankWidth cfg i) (Config.init core i r)

/-- R34: `bus_o.valid = 0` in `S_0` to `S_3` whatever the inputs (from the construction values of D7). -/
def Obligations.NoValidOutputBeforeTheFourthState : Prop :=
  ∀ (cfg : CoreConfig) (core : Nat) (ws : List (BusTxn × UserWord)) (t : State),
    ws.length ≤ 3 → clockEdges ws (State.initial cfg core) = .next t → t.busO.valid = false

/-- R36: no output depends on `rdata` at construction: whatever it holds, the first edge gives the same answer (from the
construction values of D7; where that edge writes row 0 both answers hold a draw, and they agree because both runs are given
the same one, the model's choice, log entry 4). -/
def Obligations.ConstructionReadDataIsUnobservable : Prop :=
  ∀ (cfg : CoreConfig) (core : Nat) (rd : Nat → Word) (b : BusTxn) (u : UserWord),
    clockEdge b u { State.initial cfg core with
      banks := (List.range (bankCount cfg)).map (fun i => { initialBank cfg core i with rdata := rd i }) } =
    clockEdge b u (State.initial cfg core)

/-- R182: what a platform reset between edges sets and what it leaves (the spec's own decision D9; log entry 14). -/
def Obligations.PlatformResetKeepsStorage : Prop :=
  ∀ (s : State) (rest : List Input), s.inputs = .reset :: rest →
    ∃ t, step s = .next t ∧
      t.stage0 = BusTxn.idle ∧ t.stage1 = BusTxn.idle ∧ t.stage2 = BusTxn.idle ∧ t.busO = BusTxn.idle ∧
      (∀ i, i < bankCount s.cfg → (t.bank i).raddr = 0 ∧ (t.bank i).rdata = s.drawNow i ∧
        ∀ r, t.memRead i r = s.memRead i r) ∧
      t.cfg = s.cfg ∧ t.core = s.core ∧ t.edgeNo = s.edgeNo ∧ t.inputs = rest ∧
      t.replies = s.replies ∧ t.sent = s.sent ∧ t.ret = s.ret

/-- The model's invariant holds of every constructed core and of the reset state (R25, R26, R27, R35 to R37; log entries 3 and
24). -/
def Obligations.ConstructedStatesMeetTheInvariant : Prop :=
  (∀ (cfg : CoreConfig) (core : Nat), (State.initial cfg core).Inv) ∧ State.reset.Inv

/-! ## The step -/

/-- A step runs the decoded instruction: of the bus word and of the user-port word its edge samples (R63, R65, R66), or of the
host call at hand (R70); it is the clock edge R100 of both words; with no input left it is the edge `IDLE | -` (the model's
choice, log entries 2 and 6). -/
def Obligations.StepRunsTheDecodedInstruction : Prop :=
  (∀ (s : State) (b : BusTxn) (u : UserWord) (rest : List Input), s.inputs = .edge b u :: rest →
    step s = exec (decodeBus s.cfg b) s ∧ step s = exec (decodeUser u) s ∧
    step s = clockEdge b u { s with inputs := rest }) ∧
  (∀ (s : State) (c : HostCall) (rest : List Input), s.inputs = .call c :: rest → step s = exec (decodeCall c) s) ∧
  (∀ s : State, s.inputs = [] → step s = clockEdge BusTxn.idle UserWord.nop s)

/-- A word of the opcode table is what the very next step runs once it is on its port (the model's choice, log entry 11). -/
def Obligations.FetchedWordRunsNext : Prop :=
  ∀ (s : State) (nbits w : Nat) (i : Instr), s.cfg = CoreConfig.k33 → decodeTableWord nbits w = some i →
    step (s.withFetchWord nbits w) = exec i (s.withFetchWord nbits w)

/-- R101: the shift, "At every edge, whatever the input". -/
def Obligations.EdgeShiftsThePipeline : Prop :=
  ∀ (b : BusTxn) (u : UserWord) (s : State), userOutOfRange s.cfg u = false →
    ∃ t, clockEdge b u s = .next t ∧ t.stage0 = b ∧ t.stage1 = s.stage0 ∧ t.stage2 = s.stage1

/-- R102: `bus_o` mirrors stage 2, with `data` replaced for a valid read owned by a bank. -/
def Obligations.EgressReassemblesTheResponse : Prop :=
  ∀ (b : BusTxn) (u : UserWord) (s : State), userOutOfRange s.cfg u = false →
    ∃ t, clockEdge b u s = .next t ∧
      t.busO.valid = s.stage2.valid ∧ t.busO.addr = s.stage2.addr ∧ t.busO.readWrite = s.stage2.readWrite ∧
      (∀ i, i < bankCount s.cfg → s.stage2.valid = true → s.stage2.readWrite = false →
        owns s.cfg i s.stage2.addr.toNat = true → t.busO.data = zext16 (bankWidth s.cfg i) (s.bank i).rdata) ∧
      ((s.stage2.valid = false ∨ s.stage2.readWrite = true ∨
          ∀ i, i < bankCount s.cfg → owns s.cfg i s.stage2.addr.toNat = false) →
        t.busO.data = s.stage2.data)

/-- R45: in a response from a narrow bank, bits `[15 : BW(i)]` of `data` are 0. -/
def Obligations.NarrowBankResponseIsZeroExtended : Prop :=
  ∀ (b : BusTxn) (u : UserWord) (s t : State) (i : Nat), i < bankCount s.cfg → launches s.cfg i s.stage2 = true →
    clockEdge b u s = .next t →
    (∀ k, k < bankWidth s.cfg i → t.busO.data.getLsbD k = (s.bank i).rdata.getLsbD k) ∧
    (∀ k, bankWidth s.cfg i ≤ k → t.busO.data.getLsbD k = false)

/-- R104: the launch, bank by bank; the value written is in `[0, DEPTH)`. -/
def Obligations.LaunchLatchesTheRow : Prop :=
  ∀ (b : BusTxn) (u : UserWord) (s : State), userOutOfRange s.cfg u = false →
    ∃ t, clockEdge b u s = .next t ∧ ∀ i, i < bankCount s.cfg →
      if b.valid = true ∧ b.readWrite = false ∧ owns s.cfg i b.addr.toNat = true then
        (t.bank i).raddr = b.addr.toNat - windowStart s.cfg i ∧ (t.bank i).raddr < s.cfg.depth
      else (t.bank i).raddr = (s.bank i).raddr

/-- R105, R112: the read port latches the row `raddr` held before the edge, or a draw where the side channel writes that row;
the write still takes effect (the spec's own decisions D3, D4, D5; the draw is a free value, log entry 4). -/
def Obligations.ReadPortLatchesTheOldRow : Prop :=
  ∀ (b : BusTxn) (u : UserWord) (s : State), userOutOfRange s.cfg u = false →
    ∃ t, clockEdge b u s = .next t ∧ ∀ i, i < bankCount s.cfg →
      if u.we = true ∧ u.addr = (s.bank i).raddr then
        (t.bank i).rdata = zext16 (bankWidth s.cfg i) (Config.draw s.core s.draws i) ∧
        t.memRead i u.addr = userSlice s.cfg i u.data
      else (t.bank i).rdata = s.memRead i (s.bank i).raddr

/-- R66: the two words of an edge act independently: the pipeline and `raddr` do not depend on the user-port word, and `rdata`
and storage do not depend on the bus word (R66 excepts the collision of R112, the spec's own decision D5: there the two `rdata`
agree because both edges are given the same draw, the model's choice, log entry 4). -/
def Obligations.PortsActIndependently : Prop :=
  ∀ (b b' : BusTxn) (u u' : UserWord) (s t t' : State),
    clockEdge b u s = .next t → clockEdge b' u' s = .next t' →
    t.busO = t'.busO ∧ t.stage1 = t'.stage1 ∧ t.stage2 = t'.stage2 ∧
    (b = b' → t.stage0 = t'.stage0 ∧ ∀ i, i < bankCount s.cfg → (t.bank i).raddr = (t'.bank i).raddr) ∧
    (u = u' → ∀ i, i < bankCount s.cfg → (t.bank i).rdata = (t'.bank i).rdata ∧ (t.bank i).rows = (t'.bank i).rows)

/-- The model's invariant is kept by every step, of every instruction and input (R25, R26, R27; log entries 3 and 24;
what a platform reset leaves is the spec's own decision D9, log entry 14). -/
def Obligations.StepKeepsTheInvariant : Prop :=
  ∀ s t : State, s.Inv → step s = .next t → t.Inv

/-- R32, R6: the configuration is "Immutable once the core is constructed" (that a platform reset keeps it is the model's choice,
log entry 14; the label `core` is the model's own, log entry 5). -/
def Obligations.StepKeepsTheConfiguration : Prop :=
  ∀ s t : State, step s = .next t → t.cfg = s.cfg ∧ t.core = s.core

/-- R170, R114: only the side channel writes storage: a row that a step changes is the row of a side-channel write that the
step sampled. No bus word, host call or platform reset changes a row (for bus writes the spec's own decision D11, log entry 19;
for the platform reset D9, log entry 14). -/
def Obligations.OnlyTheSideChannelWritesStorage : Prop :=
  ∀ (s t : State) (i r : Nat), step s = .next t → i < bankCount s.cfg → t.memRead i r ≠ s.memRead i r →
    ∃ b u rest, s.inputs = .edge b u :: rest ∧ u.we = true ∧ u.addr = r

/-- R67, R146: a run whose inputs are edges with a disciplined side channel, or platform resets, never stops, whatever the
bus words (the platform reset is the spec's own decision D9, log entry 14; that a run longer than its inputs goes on with
`IDLE | -` is the model's choice, log entry 2). -/
def Obligations.DisciplinedRunsNeverStop : Prop :=
  ∀ (n : Nat) (s : State), (∀ x ∈ s.inputs, Input.disciplined s.cfg x) → ∃ t, Host.Core.run core n s = .next t

/-! ## Bus transaction kinds -/

/-- R106: BUS_READ_OWNED enters stage 0 and launches its row into `raddr` of its own bank alone; what three edges later is
loaded into `bus_o` is its address with that bank's read data, `S_{t+3}.rdata[i]` (what the read ports latch rests on the
spec's own decisions D3, D4, D5; a draw is a free value, log entry 4). -/
def Obligations.OwnedReadLaunchesItsRow : Prop :=
  ∀ (a d : Word) (s : State), inWindow s.cfg a.toNat = true → userOutOfRange s.cfg s.userNow = false →
    ∃ t, exec (.busReadOwned a d) s = .next t ∧
      EdgeFrame { addr := a, data := d, readWrite := false, valid := true } s.userNow s t ∧ Latches s.userNow s t ∧
      (∀ i, i < bankCount s.cfg → (t.bank i).raddr =
        if i = (a.toNat - s.cfg.base) / s.cfg.depth then (a.toNat - s.cfg.base) % s.cfg.depth else (s.bank i).raddr) ∧
      ∀ (p1 p2 p3 : BusTxn × UserWord) (t3 t4 : State), clockEdges [p1, p2] t = .next t3 →
        clockEdge p3.1 p3.2 t3 = .next t4 →
        t4.busO = { addr := a, readWrite := false, valid := true,
                    data := zext16 (bankWidth s.cfg ((a.toNat - s.cfg.base) / s.cfg.depth))
                              (t3.bank ((a.toNat - s.cfg.base) / s.cfg.depth)).rdata }

/-- R108: BUS_READ_UNOWNED enters stage 0, changes no `raddr`, and is on `bus_o` in `S_{t+4}` with its data
(what the read ports latch, `Latches`, rests on the spec's own decisions D3, D4, D5; a draw is a free value, log entry 4). -/
def Obligations.UnownedReadLaunchesNothing : Prop :=
  ∀ (a d : Word) (s : State), inWindow s.cfg a.toNat = false → userOutOfRange s.cfg s.userNow = false →
    ∃ t, exec (.busReadUnowned a d) s = .next t ∧
      EdgeFrame { addr := a, data := d, readWrite := false, valid := true } s.userNow s t ∧ Latches s.userNow s t ∧
      KeepsRaddr s t ∧ AppearsThreeEdgesLater { addr := a, data := d, readWrite := false, valid := true } t

/-- R107 (the spec's own decision D11): a valid write, owned or not, enters stage 0, changes no `raddr` and no storage row,
and is on `bus_o` in `S_{t+4}` (what the read ports latch rests on the spec's own decisions D3, D4, D5; a draw is a free value,
log entry 4). -/
def Obligations.BusWritesChangeNoStorage : Prop :=
  ∀ (a d : Word) (s : State), userOutOfRange s.cfg s.userNow = false →
    ∃ t, exec (.busWriteOwned a d) s = .next t ∧ exec (.busWriteUnowned a d) s = .next t ∧
      EdgeFrame { addr := a, data := d, readWrite := true, valid := true } s.userNow s t ∧ Latches s.userNow s t ∧
      KeepsRaddr s t ∧ AppearsThreeEdgesLater { addr := a, data := d, readWrite := true, valid := true } t

/-- R109: BUS_IDLE only shifts, and is on `bus_o` in `S_{t+4}`, with all four fields as sampled (what the
read ports latch, `Latches`, rests on the spec's own decisions D3, D4, D5; a draw is a free value, log entry 4). -/
def Obligations.IdleOnlyShifts : Prop :=
  ∀ (rw : Bool) (a d : Word) (s : State), userOutOfRange s.cfg s.userNow = false →
    ∃ t, exec (.busIdle rw a d) s = .next t ∧
      EdgeFrame { addr := a, data := d, readWrite := rw, valid := false } s.userNow s t ∧ Latches s.userNow s t ∧
      KeepsRaddr s t ∧ AppearsThreeEdgesLater { addr := a, data := d, readWrite := rw, valid := false } t

/-- R122: any transaction that is not a valid read owned by the core is on `bus_o` in `S_{t+4}`, all four fields. -/
def Obligations.PassThroughAfterFourEdges : Prop :=
  ∀ (s : State) (b0 b1 b2 b3 : BusTxn) (u0 u1 u2 u3 : UserWord),
    isOwnedRead s.cfg b0 = false →
    userOutOfRange s.cfg u0 = false → userOutOfRange s.cfg u1 = false →
    userOutOfRange s.cfg u2 = false → userOutOfRange s.cfg u3 = false →
    ∃ t, clockEdges [(b0, u0), (b1, u1), (b2, u2), (b3, u3)] s = .next t ∧ t.busO = b0

/-- R121, the fixed-latency theorem: a valid read owned by bank `i`, row `r`, sampled at edge t, is answered in `S_{t+4}`;
its data under (H1) to (H3), and the exact value in every other case (a draw is a free value, log entry 4). `s2` is
`S_{t+2}`. -/
def Obligations.OwnedReadIsAnsweredAfterFourEdges : Prop :=
  ∀ (s : State) (b0 b1 b2 b3 : BusTxn) (u0 u1 u2 u3 : UserWord) (i : Nat),
    i < bankCount s.cfg → launches s.cfg i b0 = true →
    userOutOfRange s.cfg u0 = false → userOutOfRange s.cfg u1 = false →
    userOutOfRange s.cfg u2 = false → userOutOfRange s.cfg u3 = false →
    ∃ s2 t, clockEdges [(b0, u0), (b1, u1)] s = .next s2 ∧ clockEdges [(b2, u2), (b3, u3)] s2 = .next t ∧
      t.busO.valid = true ∧ t.busO.addr = b0.addr ∧ t.busO.readWrite = false ∧
      (¬ WritesRow u0 (rowOf s.cfg i b0.addr) → ¬ WritesRow u1 (rowOf s.cfg i b0.addr) →
        s2.memRead i (rowOf s.cfg i b0.addr) = s.memRead i (rowOf s.cfg i b0.addr)) ∧
      (launches s.cfg i b1 = false → ¬ WritesRow u2 (rowOf s.cfg i b0.addr) →
        t.busO.data = zext16 (bankWidth s.cfg i) (s2.memRead i (rowOf s.cfg i b0.addr))) ∧
      (launches s.cfg i b1 = false → WritesRow u2 (rowOf s.cfg i b0.addr) → t.busO.data = s2.drawNow i) ∧
      (launches s.cfg i b1 = true → ¬ WritesRow u2 (rowOf s.cfg i b1.addr) →
        t.busO.data = zext16 (bankWidth s.cfg i) (s2.memRead i (rowOf s.cfg i b1.addr))) ∧
      (launches s.cfg i b1 = true → WritesRow u2 (rowOf s.cfg i b1.addr) → t.busO.data = s2.drawNow i)

/-- R190, the same-bank hazard: of two owned reads of one bank at successive edges (with no third at the next edge and no
side-channel write), both responses carry the SECOND read's row. -/
def Obligations.BackToBackReadsOfOneBankCollide : Prop :=
  ∀ (s : State) (b0 b1 b2 b3 b4 : BusTxn) (i : Nat),
    i < bankCount s.cfg → launches s.cfg i b0 = true → launches s.cfg i b1 = true → launches s.cfg i b2 = false →
    ∃ t t', clockEdges [(b0, UserWord.nop), (b1, UserWord.nop), (b2, UserWord.nop), (b3, UserWord.nop)] s = .next t ∧
      clockEdge b4 UserWord.nop t = .next t' ∧
      t.busO = { b0 with data := zext16 (bankWidth s.cfg i) (s.memRead i (rowOf s.cfg i b1.addr)) } ∧
      t'.busO = { b1 with data := zext16 (bankWidth s.cfg i) (s.memRead i (rowOf s.cfg i b1.addr)) }

/-- R191, R56: one side-channel write of the row `r` being read, sampled at edge w; the read at t with no owned read of its
bank at t+1. `t >= w - 1` sees the new slice (w = t-1, t, t+1), `t = w - 2` a draw, `t = w - 3` the old row (from D3 to D6;
the draw is a free value, log entry 4). -/
def Obligations.WriteToReadDistance : Prop :=
  ∀ (s : State) (c b0 b1 b2 b3 : BusTxn) (i v : Nat),
    i < bankCount s.cfg → launches s.cfg i b0 = true → launches s.cfg i b1 = false →
    let n := UserWord.nop
    let w : UserWord := { addr := rowOf s.cfg i b0.addr, data := v, we := true }
    (∃ t, clockEdges [(c, w), (b0, n), (b1, n), (b2, n), (b3, n)] s = .next t ∧
      t.busO = { b0 with data := userSlice s.cfg i v }) ∧
    (∃ t, clockEdges [(b0, w), (b1, n), (b2, n), (b3, n)] s = .next t ∧ t.busO = { b0 with data := userSlice s.cfg i v }) ∧
    (∃ t, clockEdges [(b0, n), (b1, w), (b2, n), (b3, n)] s = .next t ∧ t.busO = { b0 with data := userSlice s.cfg i v }) ∧
    (∃ t, clockEdges [(b0, n), (b1, n), (b2, w), (b3, n)] s = .next t ∧
      t.busO = { b0 with data := zext16 (bankWidth s.cfg i) (Config.draw s.core (s.draws + 2) i) }) ∧
    (∃ t, clockEdges [(b0, n), (b1, n), (b2, n), (b3, w)] s = .next t ∧
      t.busO = { b0 with data := zext16 (bankWidth s.cfg i) (s.memRead i (rowOf s.cfg i b0.addr)) })

/-! ## User-port kinds -/

/-- R110, R116: UPORT_WRITE of a row below DEPTH: in the next state, row `a` of EVERY bank holds its slice of the data, and
every other row what it held (the edge of the write is the spec's own decision D6; what the read ports latch rests on D3, D4,
D5; a draw is a free value, log entry 4). -/
def Obligations.SideChannelWritesOneRowOfEveryBank : Prop :=
  ∀ (a v : Nat) (s : State), a < s.cfg.depth →
    ∃ t, exec (.uportWrite a v) s = .next t ∧
      EdgeFrame s.busNow { addr := a, data := v, we := true } s t ∧ Latches { addr := a, data := v, we := true } s t ∧
      (∀ i, i < bankCount s.cfg →
        t.memRead i a = BitVec.ofNat 16 (v / 2 ^ (16 * i) % 2 ^ bankWidth s.cfg i) ∧
        (t.bank i).raddr =
          if launches s.cfg i s.busNow then rowOf s.cfg i s.busNow.addr else (s.bank i).raddr)

/-- R111, R164, R169 item 3: a side-channel write with `user_addr >= DEPTH` faults, with the edge index and the address, and
with whatever bus word it is sampled, and an instruction of the bus port stops with it; nothing else makes an edge fault; and
it can occur only when DEPTH is not a power of two (the fault is the spec's own decision D12). -/
def Obligations.OutOfRangeSideChannelWriteFaults : Prop :=
  (∀ (b : BusTxn) (u : UserWord) (s : State), u.we = true → s.cfg.depth ≤ u.addr →
    clockEdge b u s = .fault (.userAddrOutOfRange s.edgeNo u.addr)) ∧
  (∀ (a v : Nat) (s : State), s.cfg.depth ≤ a → exec (.uportWrite a v) s = .fault (.userAddrOutOfRange s.edgeNo a)) ∧
  (∀ (b : BusTxn) (s : State), s.userNow.we = true → s.cfg.depth ≤ s.userNow.addr →
    exec (decodeBus s.cfg b) s = .fault (.userAddrOutOfRange s.edgeNo s.userNow.addr)) ∧
  (∀ (b : BusTxn) (u : UserWord) (s : State) (f : Fault), clockEdge b u s = .fault f → u.we = true ∧ s.cfg.depth ≤ u.addr) ∧
  (∀ cfg : CoreConfig, (∃ a, a < 2 ^ addrWidth cfg ∧ cfg.depth ≤ a) ↔ ∀ k, cfg.depth ≠ 2 ^ k)

/-- R113: UPORT_NOP completes whatever `user_addr` holds, writes no row, and every read port latches its row. -/
def Obligations.UserNopLeavesAllStorage : Prop :=
  ∀ (a v : Nat) (s : State),
    ∃ t, exec (.uportNop a v) s = .next t ∧ EdgeFrame s.busNow { addr := a, data := v, we := false } s t ∧
      ∀ i, i < bankCount s.cfg → (∀ r, t.memRead i r = s.memRead i r) ∧
        (t.bank i).rdata = s.memRead i (s.bank i).raddr ∧
        (t.bank i).raddr =
          if launches s.cfg i s.busNow then rowOf s.cfg i s.busNow.addr else (s.bank i).raddr

/-! ## Function operations -/

/-- R80: BANK_WIDTHS of a width `>= 1` returns the partition, by the three branches; `BW(i)` is its entry for WIDTH
(that the host may call it in any state is the model's choice, log entry 26). -/
def Obligations.BankWidthsReturnsThePartition : Prop :=
  ∀ (w : Nat) (s : State), 1 ≤ w →
    (∀ i, i < bankCount s.cfg → (bankWidths s.cfg.width)[i]? = some (bankWidth s.cfg i)) ∧
    ∃ ws, exec (.bankWidths w) s = .next { s.takeCall with ret := .widths ws } ∧
      (w < 16 → ws = [w]) ∧
      (16 ≤ w → w % 16 = 0 → ws = List.replicate (w / 16) 16) ∧
      (16 ≤ w → w % 16 ≠ 0 → ws = List.replicate (w / 16) 16 ++ [w % 16])

/-- R83: WINDOW of a bank index returns `(START(i), STOP(i))`, within `[0, 0xFFFF]` (that the host may call it
in any state is the model's choice, log entry 26). -/
def Obligations.WindowReturnsTheBankRange : Prop :=
  ∀ (i : Nat) (s : State), i < bankCount s.cfg →
    exec (.window i) s = .next { s.takeCall with
      ret := .window (s.cfg.base + i * s.cfg.depth) (s.cfg.base + i * s.cfg.depth + s.cfg.depth - 1) } ∧
    s.cfg.base + i * s.cfg.depth + s.cfg.depth - 1 ≤ 0xFFFF

/-- R144: MAX_ADDR returns MAX_ADDR as a u16, and changes nothing else. -/
def Obligations.MaxAddrReturnsTheLastAddress : Prop :=
  ∀ s : State, ∃ a : Word, exec .maxAddr s = .next { s.takeCall with ret := .address a } ∧
    a.toNat = s.cfg.base + s.cfg.depth * bankCount s.cfg - 1

/-- R130, R131: WORDS_TO_VALUE returns the sum of `u_j * 2^(16*j)` when every word is in `[-32768, 65535]`, and raises
RangeError otherwise (a negative word and the empty sequence are the spec's own decisions D13 and D15). -/
def Obligations.WordsToValueSumsTheWords : Prop :=
  ∀ (ws : List Int) (s : State),
    ((∀ w ∈ ws, IsCodecWord w) →
      ∃ v : Nat, exec (.wordsToValue ws) s = .next { s.takeCall with ret := .value v } ∧
        (v : Int) = ((List.range ws.length).map (fun j =>
          (if ws.getD j 0 < 0 then ws.getD j 0 + 65536 else ws.getD j 0) * 2 ^ (16 * j))).sum ∧
        v < 2 ^ (16 * ws.length)) ∧
    ((∃ w ∈ ws, ¬ IsCodecWord w) → exec (.wordsToValue ws) s = .next { s.takeCall with ret := .rangeError })

/-- R132: VALUE_TO_WORDS returns the 16-bit chunks, least significant first, of a value in `[0, 2^(16*n))`, and raises
RangeError otherwise (for a value too wide, the spec's own decision D14). -/
def Obligations.ValueToWordsSplitsTheValue : Prop :=
  ∀ (v : Int) (n : Nat) (s : State), n < 2 ^ 32 →
    (0 ≤ v → v < 2 ^ (16 * n) →
      ∃ ws, exec (.valueToWords v n) s = .next { s.takeCall with ret := .words ws } ∧ ws.length = n ∧
        ∀ j, j < n → ws[j]? = some (v.toNat / 2 ^ (16 * j) % 2 ^ 16)) ∧
    ((v < 0 ∨ 2 ^ (16 * n) ≤ v) → exec (.valueToWords v n) s = .next { s.takeCall with ret := .rangeError })

/-- On operands of which the spec states no result (a width of 0, an index past the banks, an `n_words` that is no u32) the call
runs and returns a free value, and changes nothing else; a negative value raises RangeError for every `n_words` (the model's
choice, log entries 10 and 26; the statement holds for every value of the three constants). -/
def Obligations.OperandsWithoutAStatedResultRun : Prop :=
  (∀ s : State, exec (.bankWidths 0) s = .next { s.takeCall with ret := .widths Config.widthsOfZero }) ∧
  (∀ (i : Nat) (s : State), bankCount s.cfg ≤ i →
    exec (.window i) s =
      .next { s.takeCall with ret := .window (Config.windowOutside s.cfg i).1 (Config.windowOutside s.cfg i).2 }) ∧
  (∀ (v : Int) (n : Nat) (s : State), 2 ^ 32 ≤ n →
    (v < 0 → exec (.valueToWords v n) s = .next { s.takeCall with ret := .rangeError }) ∧
    (0 ≤ v → exec (.valueToWords v n) s = .next { s.takeCall with ret := returnedWords (Config.wordsOutside v n) }))

/-- R133: the codec's round trips, in both directions; a negative word comes back as `w + 65536` (D13). -/
def Obligations.CodecRoundTrips : Prop :=
  (∀ (n v : Nat), v < 2 ^ (16 * n) →
    ∃ ws, valueToWords v n = some ws ∧ wordsToValue (ws.map (fun w : Nat => (w : Int))) = some v) ∧
  (∀ ws : List Int, (∀ w ∈ ws, IsCodecWord w) →
    ∃ v : Nat, wordsToValue ws = some v ∧
      valueToWords v ws.length = some (ws.map (fun w => (if w < 0 then w + 65536 else w).toNat)))

/-- R134: the codec and the bank layout agree, splitting and assembling. -/
def Obligations.CodecAgreesWithTheBankLayout : Prop :=
  (∀ (cfg : CoreConfig) (v : Nat), v < 2 ^ cfg.width →
    ∃ ws, valueToWords v (bankCount cfg) = some ws ∧ ∀ i, i < bankCount cfg →
      ws[i]? = some (v / 2 ^ (16 * i) % 2 ^ bankWidth cfg i)) ∧
  (∀ (cfg : CoreConfig) (m : Nat → Word), (∀ i, i < bankCount cfg → (m i).toNat < 2 ^ bankWidth cfg i) →
    ∃ v, wordsToValue ((List.range (bankCount cfg)).map (fun i => ((zext16 (bankWidth cfg i) (m i)).toNat : Int))) = some v ∧
      v = ((List.range (bankCount cfg)).map (fun i => (m i).toNat * 2 ^ (16 * i))).sum ∧ v < 2 ^ cfg.width)

/-- R140, R163: READ_FROM_USER_ADDR of addresses below DEPTH, with a transport reply of the right length, hands the
transport the physical addresses and returns one integer per address, or RangeError if a word is outside the union (the
transport's replies stand in State, log entry 8; with RangeError the reply is used up and the request was sent, log entry
13). -/
def Obligations.HostReadConvertsTheReply : Prop :=
  ∀ (s : State) (reply : List Int) (rest : List (List Int)), s.replies = reply :: rest →
    (∀ a : Int, IsLogicalAddr s.cfg a → reply.length = bankCount s.cfg → (∀ w ∈ reply, IsCodecWord w) →
      ∃ v, wordsToValue reply = some v ∧
        exec (.readFromUserAddr (.one a)) s =
          .next { s.takeCall with replies := rest, sent := requestAddrs s.cfg [a], ret := .value v }) ∧
    (∀ as : List Int, (∀ a ∈ as, IsLogicalAddr s.cfg a) → reply.length = as.length * bankCount s.cfg →
      (∀ w ∈ reply, IsCodecWord w) →
      ∃ vs, vs.length = as.length ∧
        (∀ j, j < as.length →
          vs[j]? = wordsToValue ((reply.drop (j * bankCount s.cfg)).take (bankCount s.cfg))) ∧
        exec (.readFromUserAddr (.many as)) s =
          .next { s.takeCall with replies := rest, sent := requestAddrs s.cfg as, ret := .values vs }) ∧
    (∀ x : Addrs, (∀ a ∈ addrList x, IsLogicalAddr s.cfg a) →
      reply.length = (addrList x).length * bankCount s.cfg → (∃ w ∈ reply, ¬ IsCodecWord w) →
      exec (.readFromUserAddr x) s =
        .next { s.takeCall with replies := rest, sent := requestAddrs s.cfg (addrList x), ret := .rangeError })

/-- R141: the physical addresses, "grouped by address not by bank", the banks of one address in order. -/
def Obligations.HostReadGroupsByAddress : Prop :=
  ∀ (cfg : CoreConfig) (l : List Int),
    (requestAddrs cfg l).length = l.length * bankCount cfg ∧
    ∀ j i, j < l.length → i < bankCount cfg →
      (requestAddrs cfg l)[j * bankCount cfg + i]? = some ((l.getD j 0).toNat + cfg.base + i * cfg.depth)

/-- R143, R90: every physical address sent fits 16 bits, is in the window, and decodes to its bank and row. -/
def Obligations.HostReadAddressesAreOwned : Prop :=
  (∀ (cfg : CoreConfig) (l : List Int) (p : Nat), (∀ a ∈ l, IsLogicalAddr cfg a) → p ∈ requestAddrs cfg l →
    p ≤ 0xFFFF ∧ cfg.base ≤ p ∧ p ≤ maxAddr cfg) ∧
  (∀ (cfg : CoreConfig) (a i : Nat), i < bankCount cfg →
    ((owns cfg i (a + cfg.base + i * cfg.depth) = true ↔ a < cfg.depth) ∧
    (a < cfg.depth → selectBank cfg (a + cfg.base + i * cfg.depth) = some i ∧
      a + cfg.base + i * cfg.depth - windowStart cfg i = a)))

/-- R165, R169 item 4, U10: the faults of a host read and their order: the first bad address before any transport call, then
a transport that never replies, then a reply of the wrong length (the spec's own decisions D16, D18, D19; log entry 8). -/
def Obligations.HostReadFaultsInOrder : Prop :=
  (∀ (s : State) (good bad : List Int) (a : Int), (∀ c ∈ good, IsLogicalAddr s.cfg c) → ¬ IsLogicalAddr s.cfg a →
    exec (.readFromUserAddr (.many (good ++ a :: bad))) s = .fault (.hostAddrOutOfRange a)) ∧
  (∀ (s : State) (a : Int), ¬ IsLogicalAddr s.cfg a →
    exec (.readFromUserAddr (.one a)) s = .fault (.hostAddrOutOfRange a)) ∧
  (∀ (s : State) (x : Addrs), (∀ a ∈ addrList x, IsLogicalAddr s.cfg a) → s.replies = [] →
    exec (.readFromUserAddr x) s = .fault .transportNeverReplies) ∧
  (∀ (s : State) (x : Addrs) (reply : List Int) (rest : List (List Int)), (∀ a ∈ addrList x, IsLogicalAddr s.cfg a) →
    s.replies = reply :: rest → reply.length ≠ (addrList x).length * bankCount s.cfg →
    exec (.readFromUserAddr x) s =
      .fault (.transportProtocol ((addrList x).length * bankCount s.cfg) reply.length))

/-- R147: the empty request is answered with the empty sequence, by a transport that is called with the empty sequence and
returns it (the spec's own decision D17). -/
def Obligations.EmptyHostReadReturnsEmpty : Prop :=
  ∀ (s : State) (rest : List (List Int)), s.replies = [] :: rest →
    exec (.readFromUserAddr (.many [])) s = .next { s.takeCall with replies := rest, sent := [], ret := .values [] }

/-- R142, U4: the transport's unimplemented `write` is refused (log entry 19). -/
def Obligations.HostWriteIsRefused : Prop :=
  ∀ (s : State) (addrs : List Nat) (data : List Int) (rest : List Input), s.inputs = .hostWrite addrs data :: rest →
    step s = .refused .hostWriteUnimplemented

/-- R145: a transport that performs each physical address of row `r` as one isolated bus read returns words that assemble to
the logical row, and leaves storage as it was (that transport is the model's `isolatedReads`, log entry 8). -/
def Obligations.IsolatedTransportReadsTheLogicalRow : Prop :=
  ∀ (s : State) (r : Nat), s.Inv → r < s.cfg.depth →
    ∃ ws t, isolatedReads (physicalAddrs s.cfg r) s = some (ws, t) ∧ wordsToValue ws = some (logicalRow s r) ∧
      ∀ i q, i < bankCount s.cfg → t.memRead i q = s.memRead i q

/-- The whole path (R110, R121, R134, R145): a logical row written through the side channel is the integer the host reads
back (that transport is the model's `isolatedReads`, log entry 8). -/
def Obligations.WrittenRowReadsBack : Prop :=
  ∀ (s : State) (b : BusTxn) (r v : Nat), r < s.cfg.depth → v < 2 ^ s.cfg.width →
    ∃ s1 ws t, clockEdge b { addr := r, data := v, we := true } s = .next s1 ∧ logicalRow s1 r = v ∧
      isolatedReads (physicalAddrs s.cfg r) s1 = some (ws, t) ∧ wordsToValue ws = some v

/-! ## Encoding -/

/-- Decode and encode agree: a well-formed instruction, of every kind and with every operand its encoding admits, is what the
decoder reads from its encoding (R61, R63, R65, R70; the packings are D2 and log entry 9). -/
def Obligations.DecodeOfEncodeIsTheInstruction : Prop :=
  ∀ (cfg : CoreConfig) (i : Instr), i.wf cfg = true → decode cfg (encode cfg i) = .ok i

/-- R67, R63: "No bus word is illegal": every 34-bit word is a well-formed instruction, whose encoding is the word; so each
word is of exactly one kind (by the packing D2). -/
def Obligations.EveryBusWordIsOneInstruction : Prop :=
  ∀ (cfg : CoreConfig) (w : Nat), w < 2 ^ 34 →
    ∃ i, decode cfg (.bus w) = .ok i ∧ i.wf cfg = true ∧ encode cfg i = .bus w ∧
      ∀ j : Instr, j.wf cfg = true → encode cfg j = .bus w → j = i

/-- Words written out from the tables of R61, R63, R65 decode, on K33, to the instruction they stand for (by the packing D2;
the port of a table word is the model's choice, log entry 11). -/
def Obligations.WordsOfTheTablesDecode : Prop :=
  decode CoreConfig.k33 (.bus 0x0FFFF0065) = .ok (.busIdle false 101 0xFFFF) ∧
  decode CoreConfig.k33 (.bus 0x200000064) = .ok (.busReadOwned 100 0) ∧
  decode CoreConfig.k33 (.bus 0x2BEEF0070) = .ok (.busReadUnowned 112 0xBEEF) ∧
  decode CoreConfig.k33 (.bus 0x300AA0068) = .ok (.busWriteOwned 104 0x00AA) ∧
  decode CoreConfig.k33 (.bus 0x3000700C8) = .ok (.busWriteUnowned 200 7) ∧
  decodeTableWord 1 1 = some (.uportWrite 0 0) ∧ decodeTableWord 1 0 = some (.uportNop 0 0)

/-! ## Chains -/

/-- R123, R122, R120: in a chain of N cores, a word that no core answers, sampled by `C_1` at edge 0, is what the host
receives in the state after 4*N edges (the wiring is the spec's own decision D25). -/
def Obligations.ChainPassesUnownedWords : Prop :=
  ∀ (cs cs' : List State) (b : BusTxn) (us : List UserWord) (ws : List (BusTxn × List UserWord)),
    cs ≠ [] → ws.length + 1 = 4 * cs.length → (∀ c ∈ cs, isOwnedRead c.cfg b = false) →
    chainEdges ((b, us) :: ws) cs = .next cs' → chainOut cs' = some b

/-- R123, R120: what `C_1` puts on its `bus_o` after 4 edges (its response to a read it owns, say) is what the host receives
after 4*N edges, when no later core answers that word (the wiring is the spec's own decision D25). -/
def Obligations.ChainKeepsTheUpstreamResponse : Prop :=
  ∀ (c c4 : State) (cs cs' : List State) (p0 p1 p2 p3 : BusTxn × List UserWord) (ws : List (BusTxn × List UserWord)),
    ws.length = 4 * cs.length →
    clockEdges ([p0, p1, p2, p3].map (fun p => (p.1, p.2.headD UserWord.nop))) c = .next c4 →
    (∀ d ∈ cs, isOwnedRead d.cfg c4.busO = false) →
    chainEdges (p0 :: p1 :: p2 :: p3 :: ws) (c :: cs) = .next cs' → chainOut cs' = some c4.busO

/-- R51, R120: where the windows of two cores of a chain both contain the address of a read, "the last owning core on the
chain wins": the host receives the second core's row (the wiring is the spec's own decision D25). -/
def Obligations.LastOwnerOnTheChainAnswers : Prop :=
  ∀ (c d : State) (b : BusTxn) (i : Nat), i < bankCount d.cfg → launches d.cfg i b = true →
    ∃ cs', chainEdges ((b, []) :: List.replicate 7 (BusTxn.idle, [])) [c, d] = .next cs' ∧
      chainOut cs' = some { b with data := zext16 (bankWidth d.cfg i) (d.memRead i (rowOf d.cfg i b.addr)) }
end

