-- ==== Sys2Proof/Laws/AddressDecoder.lean ====
section
/-! SUPPORT. Bank count, ownership and window as arithmetic. -/

namespace Sys2Proof.Machine

/-- `BANK_COUNT = ceil(WIDTH / 16)` (R81). -/
theorem bankCount_eq (cfg : CoreConfig) : bankCount cfg = (cfg.width + 15) / 16 := by
  unfold bankCount bankWidths
  have := cfg.width_pos
  split
  · simp; omega
  · split <;> simp <;> omega

theorem bankCount_pos (cfg : CoreConfig) : 1 ≤ bankCount cfg := by
  rw [bankCount_eq]
  have := cfg.width_pos
  omega

theorem maxAddr_le (cfg : CoreConfig) : maxAddr cfg ≤ 0xFFFF := by
  unfold maxAddr; rw [bankCount_eq]; exact cfg.fits

/-- Bank `i` owns exactly the addresses whose offset divides to `i`. -/
theorem owns_iff (cfg : CoreConfig) (i a : Nat) :
    owns cfg i a = true ↔ cfg.base ≤ a ∧ (a - cfg.base) / cfg.depth = i := by
  have hd := cfg.depth_pos
  simp only [owns, Bool.and_eq_true, decide_eq_true_eq]
  unfold windowStop windowStart
  constructor
  · intro ⟨h1, h2⟩
    refine ⟨by have := Nat.zero_le (i * cfg.depth); omega, ?_⟩
    apply Nat.div_eq_of_lt_le
    · omega
    · rw [Nat.add_mul]; omega
  · rintro ⟨h1, rfl⟩
    have e := Nat.div_add_mod (a - cfg.base) cfg.depth
    have l := Nat.mod_lt (a - cfg.base) hd
    rw [Nat.mul_comm] at e
    omega

theorem inWindow_iff (cfg : CoreConfig) (a : Nat) :
    inWindow cfg a = true ↔ cfg.base ≤ a ∧ (a - cfg.base) / cfg.depth < bankCount cfg := by
  have hd := cfg.depth_pos
  simp only [inWindow, Bool.and_eq_true, decide_eq_true_eq]
  unfold maxAddr
  rw [Nat.div_lt_iff_lt_mul hd, Nat.mul_comm (bankCount cfg)]
  have : 1 ≤ cfg.depth * bankCount cfg := Nat.mul_pos hd (bankCount_pos cfg)
  omega

end Sys2Proof.Machine
end

