-- ==== Sys2Proof/Laws/Chain.lean ====
section
/-! SUPPORT. An edge of a chain, taken apart at the first core; a run of a chain, taken apart at the first edge. -/

namespace Sys2Proof.Machine

theorem chainEdge_cons {b : BusTxn} {us : List UserWord} {c : State} {cs r : List State} :
    chainEdge b us (c :: cs) = .next r ↔
      ∃ c' cs', clockEdge b (us.headD UserWord.nop) c = .next c' ∧ chainEdge c.busO us.tail cs = .next cs' ∧ r = c' :: cs' := by
  simp only [chainEdge]
  cases clockEdge b (us.headD UserWord.nop) c <;> simp
  cases chainEdge c.busO us.tail cs <;> simp [eq_comm]

theorem chainEdges_cons {p : BusTxn × List UserWord} {ws : List (BusTxn × List UserWord)} {cs r : List State} :
    chainEdges (p :: ws) cs = .next r ↔ ∃ cs', chainEdge p.1 p.2 cs = .next cs' ∧ chainEdges ws cs' = .next r := by
  obtain ⟨b, us⟩ := p
  simp only [chainEdges]
  cases chainEdge b us cs <;> simp

end Sys2Proof.Machine
end

