-- ==== Sys2Proof/Laws/PerInstr.lean ====
section
/-! SUPPORT. The statements made instruction by instruction, about an instruction as syntax. -/

/-- The encoding of a well-formed instruction fits the port it stands on (spec/30_encoding.md R60, R65), or is the call
that the decoder takes for it (R70). -/
def Sys2Proof.Laws.EncodingFits.Statement (i : Sys2Proof.Instr) : Prop :=
  ∀ cfg : Sys2Proof.CoreConfig, i.wf cfg = true →
    match Sys2Proof.encode cfg i with
    | .bus w => w < 2 ^ 34
    | .user w => w < 2 ^ Sys2Proof.userBits cfg
    | .call c => Sys2Proof.decodeCall c = i

namespace Sys2Proof

/-- A user-port word whose fields fit packs into the bits of its port. -/
theorem UserWord.pack_lt {cfg : CoreConfig} {a d : Nat} (we : Bool) (h : userFits cfg a d = true) :
    UserWord.pack cfg { addr := a, data := d, we := we } < 2 ^ userBits cfg := by
  simp only [userFits, Bool.and_eq_true, decide_eq_true_eq] at h
  obtain ⟨ha, hd⟩ := h
  have hm : 2 ^ Machine.addrWidth cfg * (d + 1) ≤ 2 ^ Machine.addrWidth cfg * 2 ^ cfg.width := Nat.mul_le_mul_left _ hd
  have hw : we.toNat ≤ 1 := by cases we <;> decide
  have hp : 2 ^ userBits cfg = 2 * (2 ^ Machine.addrWidth cfg * 2 ^ cfg.width) := by
    rw [userBits, Nat.pow_add, Nat.pow_add, Nat.pow_one, Nat.mul_assoc]
  rw [hp]
  simp only [UserWord.pack]
  rw [Nat.mul_add] at hm
  omega

theorem BusTxn.pack_lt (t : BusTxn) : (BusTxn.pack t).toNat < 2 ^ 34 := (BusTxn.pack t).isLt

end Sys2Proof

namespace Sys2Proof.Laws.EncodingFits

theorem busIdle (rw : Bool) (a d : Word) : Statement (.busIdle rw a d) := fun _ _ => BusTxn.pack_lt _
theorem busReadOwned (a d : Word) : Statement (.busReadOwned a d) := fun _ _ => BusTxn.pack_lt _
theorem busReadUnowned (a d : Word) : Statement (.busReadUnowned a d) := fun _ _ => BusTxn.pack_lt _
theorem busWriteOwned (a d : Word) : Statement (.busWriteOwned a d) := fun _ _ => BusTxn.pack_lt _
theorem busWriteUnowned (a d : Word) : Statement (.busWriteUnowned a d) := fun _ _ => BusTxn.pack_lt _
theorem uportWrite (a d : Nat) : Statement (.uportWrite a d) := fun _ h => UserWord.pack_lt true h
theorem uportNop (a d : Nat) : Statement (.uportNop a d) := fun _ h => UserWord.pack_lt false h
theorem bankWidths (w : Nat) : Statement (.bankWidths w) := fun _ _ => rfl
theorem window (i : Nat) : Statement (.window i) := fun _ _ => rfl
theorem maxAddr : Statement .maxAddr := fun _ _ => rfl
theorem wordsToValue (ws : List Int) : Statement (.wordsToValue ws) := fun _ _ => rfl
theorem valueToWords (v : Int) (n : Nat) : Statement (.valueToWords v n) := fun _ _ => rfl
theorem readFromUserAddr (x : Addrs) : Statement (.readFromUserAddr x) := fun _ _ => rfl

end Sys2Proof.Laws.EncodingFits
end

