-- ==== Sys2Proof/Laws/Encoding.lean ====
section
/-! SUPPORT. Packing and unpacking of the two words are inverse to each other, and what the decoder reads from a packed word. -/

namespace Sys2Proof

theorem BusTxn.unpack_pack (t : BusTxn) : BusTxn.unpack t.pack = t := by
  obtain ⟨a, d, rw, v⟩ := t
  simp only [BusTxn.unpack, BusTxn.pack, BusTxn.mk.injEq]
  refine ⟨?_, ?_, ?_, ?_⟩
  · apply BitVec.eq_of_getLsbD_eq
    intro i hi
    simp only [BitVec.getLsbD_extractLsb', BitVec.getLsbD_append]
    simp [hi, show i < 16 + 16 by omega, show i < 1 + (16 + 16) by omega]
  · apply BitVec.eq_of_getLsbD_eq
    intro i hi
    simp only [BitVec.getLsbD_extractLsb', BitVec.getLsbD_append]
    simp [hi, show 16 + i < 16 + 16 by omega, show 16 + i < 1 + (16 + 16) by omega]
  · simp only [BitVec.getLsbD_append]
    simp
  · simp only [BitVec.getLsbD_append]
    simp

theorem BusTxn.pack_unpack (w : BitVec 34) : (BusTxn.unpack w).pack = w := by
  apply BitVec.eq_of_getLsbD_eq
  intro i hi
  simp only [BusTxn.unpack, BusTxn.pack]
  simp only [BitVec.getLsbD_append, BitVec.getLsbD_extractLsb', BitVec.getLsbD_ofBool]
  by_cases h1 : i < 16
  · simp [h1, show i < 16 + 16 by omega, show i < 1 + (16 + 16) by omega]
  · by_cases h2 : i < 32
    · simp [h1, h2, show i < 1 + (16 + 16) by omega, show i - 16 < 16 by omega, show 16 + (i - 16) = i by omega]
    · by_cases h3 : i = 32
      · subst h3; simp
      · obtain rfl : i = 33 := by omega
        simp

/-- The decoder reads a packed transaction by its kind. -/
theorem decode_pack (cfg : CoreConfig) (t : BusTxn) : decode cfg (.bus t.pack.toNat) = .ok (decodeBus cfg t) := by
  simp only [decode, if_pos t.pack.isLt, BitVec.ofNat_toNat, BitVec.setWidth_eq, BusTxn.unpack_pack]

theorem UserWord.unpack_pack {cfg : CoreConfig} {a d : Nat} (we : Bool) (h : userFits cfg a d = true) :
    UserWord.unpack cfg (UserWord.pack cfg { addr := a, data := d, we := we }) = { addr := a, data := d, we := we } := by
  simp only [userFits, Bool.and_eq_true, decide_eq_true_eq] at h
  have hw : we.toNat < 2 := by cases we <;> decide
  have e1 : (we.toNat + 2 * (a + 2 ^ Machine.addrWidth cfg * d)) / 2 = a + 2 ^ Machine.addrWidth cfg * d := by omega
  have e2 : decide ((we.toNat + 2 * (a + 2 ^ Machine.addrWidth cfg * d)) % 2 = 1) = we := by
    cases we <;> simp
  simp only [UserWord.unpack, UserWord.pack, UserWord.mk.injEq]
  refine ⟨?_, ?_, e2⟩
  · rw [e1, Nat.add_mul_mod_self_left, Nat.mod_eq_of_lt h.1]
  · rw [e1, Nat.add_mul_div_left _ _ (Nat.two_pow_pos _), Nat.div_eq_of_lt h.1, Nat.zero_add]

/-- The decoder reads a packed user-port word by its kind. -/
theorem decode_pack_user {cfg : CoreConfig} {a d : Nat} (we : Bool) (h : userFits cfg a d = true) :
    decode cfg (.user (UserWord.pack cfg { addr := a, data := d, we := we })) =
      .ok (decodeUser { addr := a, data := d, we := we }) := by
  simp only [decode, if_pos (UserWord.pack_lt we h), UserWord.unpack_pack we h]

end Sys2Proof
end

