-- ==== Sys2Proof/Laws/HostCalls.lean ====
section
/-! SUPPORT. What WINDOW and VALUE_TO_WORDS give, on the operands the spec gives a result for and on the others. -/

namespace Sys2Proof.Machine

theorem windowOf_of_lt {cfg : CoreConfig} {i : Nat} (h : i < bankCount cfg) :
    windowOf cfg i = (windowStart cfg i, windowStop cfg i) := if_pos h

theorem windowOf_of_ge {cfg : CoreConfig} {i : Nat} (h : bankCount cfg ≤ i) :
    windowOf cfg i = Config.windowOutside cfg i := if_neg (Nat.not_lt.2 h)

theorem wordsOf_of_lt {n : Nat} (h : n < 2 ^ 32) (v : Int) : wordsOf v n = valueToWords v n := if_pos h

/-- A negative value raises RangeError whatever `n_words` is. -/
theorem wordsOf_of_neg {v : Int} (h : v < 0) (n : Nat) : wordsOf v n = none := by
  simp [wordsOf, valueToWords, h]

theorem wordsOf_of_ge {v : Int} {n : Nat} (h : 2 ^ 32 ≤ n) (hv : 0 ≤ v) : wordsOf v n = Config.wordsOutside v n := by
  rw [wordsOf, if_neg (Nat.not_lt.2 h), if_neg (Int.not_lt.2 hv)]

end Sys2Proof.Machine
end

