-- ==== Sys2Proof/Laws/Memory.lean ====
section
/-! SUPPORT. What the rows of a bank do: a read after a write, the canonical form, and that it is canonical. -/

namespace Sys2Proof.Machine

theorem Memory.wf_nil : Memory.wf [] := List.Pairwise.nil

theorem Memory.lookup_write (m : Memory) (r q : Nat) (v : Word) :
    (m.write r v).lookup q = if q = r then some v else m.lookup q := by
  induction m with
  | nil => simp [Memory.write, Memory.lookup]
  | cons p m ih =>
    obtain ⟨k, x⟩ := p
    simp only [Memory.write]
    split
    · simp [Memory.lookup]
    · split
      · subst r
        simp only [Memory.lookup]
        split <;> rfl
      · simp only [Memory.lookup, ih]
        split <;> split <;> first | rfl | omega

@[simp] theorem Memory.lookup_write_same (m : Memory) (r : Nat) (v : Word) : (m.write r v).lookup r = some v := by
  simp [Memory.lookup_write]

theorem Memory.lookup_write_other (m : Memory) {r q : Nat} (v : Word) (h : q ≠ r) :
    (m.write r v).lookup q = m.lookup q := by
  simp [Memory.lookup_write, h]

/-- Only the written row is new in the list. -/
theorem Memory.mem_write {m : Memory} {r : Nat} {v : Word} {p : Nat × Word} (h : p ∈ m.write r v) : p = (r, v) ∨ p ∈ m := by
  induction m with
  | nil => exact .inl (by simpa [Memory.write] using h)
  | cons a m ih =>
    obtain ⟨k, x⟩ := a
    simp only [Memory.write] at h
    split at h
    · simpa using h
    · split at h
      · rcases List.mem_cons.1 h with rfl | h
        · exact .inl rfl
        · exact .inr (List.mem_cons_of_mem _ h)
      · rcases List.mem_cons.1 h with rfl | h
        · exact .inr List.mem_cons_self
        · exact (ih h).imp id (List.mem_cons_of_mem _)

/-- Every write keeps the canonical form. -/
theorem Memory.write_wf {m : Memory} (h : Memory.wf m) (r : Nat) (v : Word) : Memory.wf (m.write r v) := by
  induction m with
  | nil => simp [Memory.write, Memory.wf]
  | cons a m ih =>
    obtain ⟨k, x⟩ := a
    have hk : ∀ q ∈ m, k < q.1 := by
      intro q hq
      exact (List.pairwise_cons.1 h).1 _ (List.mem_map_of_mem hq)
    have hm : Memory.wf m := (List.pairwise_cons.1 h).2
    simp only [Memory.write]
    split
    · rename_i hr
      refine List.pairwise_cons.2 ⟨?_, h⟩
      intro y hy
      rcases List.mem_cons.1 hy with rfl | hy
      · exact hr
      · exact Nat.lt_trans hr ((List.pairwise_cons.1 h).1 y hy)
    · split
      · subst r
        exact List.pairwise_cons.2 ⟨(List.pairwise_cons.1 h).1, hm⟩
      · refine List.pairwise_cons.2 ⟨?_, ih hm⟩
        intro y hy
        obtain ⟨q, hq, rfl⟩ := List.mem_map.1 hy
        rcases Memory.mem_write hq with rfl | hq
        · simp only; omega
        · exact hk q hq

/-- A row whose number is not listed has no listed value. -/
theorem Memory.lookup_eq_none {m : Memory} {r : Nat} (h : ∀ p ∈ m, p.1 ≠ r) : m.lookup r = none := by
  induction m with
  | nil => rfl
  | cons a m ih =>
    obtain ⟨k, x⟩ := a
    have hk : ¬ r = k := fun e => h (k, x) List.mem_cons_self e.symm
    simp only [Memory.lookup, hk, if_false]
    exact ih fun p hp => h p (List.mem_cons_of_mem _ hp)

theorem Memory.mem_of_lookup {m : Memory} {r : Nat} {v : Word} (h : m.lookup r = some v) : (r, v) ∈ m := by
  induction m with
  | nil => simp [Memory.lookup] at h
  | cons a m ih =>
    obtain ⟨k, x⟩ := a
    simp only [Memory.lookup] at h
    split at h
    · rename_i e
      subst e
      simp only [Option.some.injEq] at h
      subst h
      exact List.mem_cons_self
    · exact List.mem_cons_of_mem _ (ih h)

/-- The form is canonical: two lists in it that hold the same for every row are the same list. INIT being open, this is
"equal memories are equal data" for every INIT at once (log entry 3). -/
theorem Memory.eq_of_lookup_eq {m n : Memory} (hm : Memory.wf m) (hn : Memory.wf n) (h : ∀ r, m.lookup r = n.lookup r) :
    m = n := by
  induction m generalizing n with
  | nil =>
    cases n with
    | nil => rfl
    | cons b n => have := h b.1; simp [Memory.lookup] at this
  | cons a m ih =>
    obtain ⟨k, x⟩ := a
    have hlt : ∀ p ∈ m, k < p.1 := fun p hp => (List.pairwise_cons.1 hm).1 _ (List.mem_map_of_mem hp)
    cases n with
    | nil => have := h k; simp [Memory.lookup] at this
    | cons b n =>
      obtain ⟨l, y⟩ := b
      have hlt' : ∀ p ∈ n, l < p.1 := fun p hp => (List.pairwise_cons.1 hn).1 _ (List.mem_map_of_mem hp)
      have hkl : k = l := by
        by_contra hne
        rcases Nat.lt_or_gt_of_ne hne with hlt2 | hlt2
        · have := h k
          rw [Memory.lookup_eq_none (m := (l, y) :: n)] at this
          · simp [Memory.lookup] at this
          · intro p hp
            rcases List.mem_cons.1 hp with rfl | hp
            · exact fun e => hne e.symm
            · have := hlt' p hp; omega
        · have := h l
          rw [Memory.lookup_eq_none (m := (k, x) :: m)] at this
          · simp [Memory.lookup] at this
          · intro p hp
            rcases List.mem_cons.1 hp with rfl | hp
            · exact hne
            · have := hlt p hp; omega
      subst hkl
      have hxy : x = y := by simpa [Memory.lookup] using h k
      subst hxy
      rw [ih (List.pairwise_cons.1 hm).2 (List.pairwise_cons.1 hn).2]
      intro r
      by_cases hr : r = k
      · subst hr
        rw [Memory.lookup_eq_none fun p hp => Nat.ne_of_gt (hlt p hp),
          Memory.lookup_eq_none fun p hp => Nat.ne_of_gt (hlt' p hp)]
      · simpa [Memory.lookup, hr] using h r

end Sys2Proof.Machine
end

