-- ==== Sys2Proof/Laws/Operands.lean ====
section
/-! SUPPORT. What the slices and the zero extension give, as numbers. -/

namespace Sys2Proof.Machine

theorem zext16_toNat (n : Nat) (v : Word) : (zext16 n v).toNat = v.toNat % 2 ^ n := by
  simp only [zext16, BitVec.toNat_setWidth]
  exact Nat.mod_eq_of_lt (Nat.lt_of_le_of_lt (Nat.mod_le _ _) v.isLt)

theorem zext16_toNat_lt (n : Nat) (v : Word) : (zext16 n v).toNat < 2 ^ n := by
  rw [zext16_toNat]; exact Nat.mod_lt _ (Nat.two_pow_pos n)

/-- A value that already fits is its own zero extension. -/
theorem zext16_of_lt {n : Nat} {v : Word} (h : v.toNat < 2 ^ n) : zext16 n v = v := by
  apply BitVec.eq_of_toNat_eq
  rw [zext16_toNat, Nat.mod_eq_of_lt h]

@[simp] theorem zext16_zext16 (n : Nat) (v : Word) : zext16 n (zext16 n v) = zext16 n v :=
  zext16_of_lt (zext16_toNat_lt n v)

theorem slice_lt (v lo len : Nat) : slice v lo len < 2 ^ len := Nat.mod_lt _ (Nat.two_pow_pos len)

/-- The written slice fits its bank. -/
theorem userSlice_toNat_lt (cfg : CoreConfig) (i ud : Nat) : (userSlice cfg i ud).toNat < 2 ^ bankWidth cfg i := by
  simp only [userSlice, BitVec.toNat_ofNat]
  exact Nat.lt_of_le_of_lt (Nat.mod_le _ _) (slice_lt _ _ _)

theorem initRow_toNat_lt (cfg : CoreConfig) (core i r : Nat) : (initRow cfg core i r).toNat < 2 ^ bankWidth cfg i :=
  zext16_toNat_lt _ _

theorem drawFor_toNat_lt (cfg : CoreConfig) (core n i : Nat) : (drawFor cfg core n i).toNat < 2 ^ bankWidth cfg i :=
  zext16_toNat_lt _ _

/-- An owned address is at least START(i). -/
theorem owns_start_le {cfg : CoreConfig} {i a : Nat} (h : owns cfg i a = true) : windowStart cfg i ≤ a := by
  simp only [owns, Bool.and_eq_true, decide_eq_true_eq] at h; exact h.1

/-- The row offset of an owned address is a row of the bank (R89). -/
theorem owns_row_lt {cfg : CoreConfig} {i a : Nat} (h : owns cfg i a = true) : a - windowStart cfg i < cfg.depth := by
  simp only [owns, Bool.and_eq_true, decide_eq_true_eq] at h
  unfold windowStop at h
  have := cfg.depth_pos
  omega

end Sys2Proof.Machine
end

