-- ==== Sys2Proof/Laws/State.lean ====
section
/-! SUPPORT. One lemma per field per update of the state, each by unfolding, so that no later proof unfolds a record update. -/

namespace Sys2Proof.Machine

section Edge
variable (b : BusTxn) (u : UserWord) (s : State)

@[simp] theorem edgeState_cfg : (edgeState b u s).cfg = s.cfg := rfl
@[simp] theorem edgeState_core : (edgeState b u s).core = s.core := rfl
@[simp] theorem edgeState_stage0 : (edgeState b u s).stage0 = b := rfl
@[simp] theorem edgeState_stage1 : (edgeState b u s).stage1 = s.stage0 := rfl
@[simp] theorem edgeState_stage2 : (edgeState b u s).stage2 = s.stage1 := rfl
@[simp] theorem edgeState_busO : (edgeState b u s).busO = egress s := rfl
@[simp] theorem edgeState_edgeNo : (edgeState b u s).edgeNo = s.edgeNo + 1 := rfl
@[simp] theorem edgeState_draws : (edgeState b u s).draws = s.draws + 1 := rfl
@[simp] theorem edgeState_inputs : (edgeState b u s).inputs = s.inputs := rfl
@[simp] theorem edgeState_replies : (edgeState b u s).replies = s.replies := rfl
@[simp] theorem edgeState_sent : (edgeState b u s).sent = s.sent := rfl
@[simp] theorem edgeState_ret : (edgeState b u s).ret = s.ret := rfl
@[simp] theorem edgeState_banks_length : (edgeState b u s).banks.length = bankCount s.cfg := by simp [edgeState]

/-- The banks after an edge: bank `i` for every `i` below BANK_COUNT. -/
theorem edgeState_bank {i : Nat} (h : i < bankCount s.cfg) : (edgeState b u s).bank i = nextBank b u s i := by
  simp [State.bank, edgeState, h]

end Edge

section Reset
variable (s : State)

@[simp] theorem platformReset_cfg : (platformReset s).cfg = s.cfg := rfl
@[simp] theorem platformReset_core : (platformReset s).core = s.core := rfl
@[simp] theorem platformReset_stage0 : (platformReset s).stage0 = BusTxn.idle := rfl
@[simp] theorem platformReset_stage1 : (platformReset s).stage1 = BusTxn.idle := rfl
@[simp] theorem platformReset_stage2 : (platformReset s).stage2 = BusTxn.idle := rfl
@[simp] theorem platformReset_busO : (platformReset s).busO = BusTxn.idle := rfl
@[simp] theorem platformReset_edgeNo : (platformReset s).edgeNo = s.edgeNo := rfl
@[simp] theorem platformReset_draws : (platformReset s).draws = s.draws + 1 := rfl
@[simp] theorem platformReset_inputs : (platformReset s).inputs = s.inputs := rfl
@[simp] theorem platformReset_replies : (platformReset s).replies = s.replies := rfl
@[simp] theorem platformReset_sent : (platformReset s).sent = s.sent := rfl
@[simp] theorem platformReset_ret : (platformReset s).ret = s.ret := rfl
@[simp] theorem platformReset_banks_length : (platformReset s).banks.length = bankCount s.cfg := by simp [platformReset]

/-- The banks after a platform reset. -/
theorem platformReset_bank {i : Nat} (h : i < bankCount s.cfg) :
    (platformReset s).bank i = { raddr := 0, rdata := s.drawNow i, rows := (s.bank i).rows } := by
  simp [State.bank, platformReset, h]

end Reset

section Initial
variable (cfg : CoreConfig) (core : Nat)

@[simp] theorem initial_cfg : (State.initial cfg core).cfg = cfg := rfl
@[simp] theorem initial_core : (State.initial cfg core).core = core := rfl
@[simp] theorem initial_stage0 : (State.initial cfg core).stage0 = BusTxn.idle := rfl
@[simp] theorem initial_stage1 : (State.initial cfg core).stage1 = BusTxn.idle := rfl
@[simp] theorem initial_stage2 : (State.initial cfg core).stage2 = BusTxn.idle := rfl
@[simp] theorem initial_busO : (State.initial cfg core).busO = BusTxn.idle := rfl
@[simp] theorem initial_inputs : (State.initial cfg core).inputs = [] := rfl
@[simp] theorem initial_banks_length : (State.initial cfg core).banks.length = bankCount cfg := by simp [State.initial]

/-- Every bank of a constructed core is as at construction, listed or not. -/
@[simp] theorem initial_bank (i : Nat) : (State.initial cfg core).bank i = initialBank cfg core i := by
  by_cases h : i < bankCount cfg <;> simp [State.bank, State.initial, List.getD, h]

end Initial

/-! Taking an input off the list, and the host's fields, change nothing of the core. -/

section Inputs
variable (s : State) (is : List Input)

@[simp] theorem bank_withInputs (i : Nat) : ({ s with inputs := is } : State).bank i = s.bank i := rfl
@[simp] theorem memRead_withInputs (i r : Nat) : ({ s with inputs := is } : State).memRead i r = s.memRead i r := rfl
@[simp] theorem egress_withInputs : egress { s with inputs := is } = egress s := rfl

/-- What taking an input off the list can do: nothing but shorten the list. -/
theorem takeEdge_eq : s.takeEdge = { s with inputs := s.takeEdge.inputs } := by
  unfold State.takeEdge; split <;> rfl
theorem takeCall_eq : s.takeCall = { s with inputs := s.takeCall.inputs } := by
  unfold State.takeCall; split <;> rfl
theorem takeReset_eq : s.takeReset = { s with inputs := s.takeReset.inputs } := by
  unfold State.takeReset; split <;> rfl

@[simp] theorem takeEdge_cfg : s.takeEdge.cfg = s.cfg := by rw [takeEdge_eq]
@[simp] theorem takeEdge_core : s.takeEdge.core = s.core := by rw [takeEdge_eq]
@[simp] theorem takeEdge_stage0 : s.takeEdge.stage0 = s.stage0 := by rw [takeEdge_eq]
@[simp] theorem takeEdge_stage1 : s.takeEdge.stage1 = s.stage1 := by rw [takeEdge_eq]
@[simp] theorem takeEdge_stage2 : s.takeEdge.stage2 = s.stage2 := by rw [takeEdge_eq]
@[simp] theorem takeEdge_banks : s.takeEdge.banks = s.banks := by rw [takeEdge_eq]
@[simp] theorem takeEdge_edgeNo : s.takeEdge.edgeNo = s.edgeNo := by rw [takeEdge_eq]
@[simp] theorem takeEdge_draws : s.takeEdge.draws = s.draws := by rw [takeEdge_eq]
@[simp] theorem takeEdge_replies : s.takeEdge.replies = s.replies := by rw [takeEdge_eq]
@[simp] theorem takeEdge_sent : s.takeEdge.sent = s.sent := by rw [takeEdge_eq]
@[simp] theorem takeEdge_ret : s.takeEdge.ret = s.ret := by rw [takeEdge_eq]
@[simp] theorem takeEdge_bank (i : Nat) : s.takeEdge.bank i = s.bank i := by rw [takeEdge_eq]; rfl
@[simp] theorem takeEdge_memRead (i r : Nat) : s.takeEdge.memRead i r = s.memRead i r := by rw [takeEdge_eq]; rfl
@[simp] theorem takeEdge_drawNow (i : Nat) : s.takeEdge.drawNow i = s.drawNow i := by rw [takeEdge_eq]; rfl
@[simp] theorem egress_takeEdge : egress s.takeEdge = egress s := by rw [takeEdge_eq]; rfl

@[simp] theorem takeCall_cfg : s.takeCall.cfg = s.cfg := by rw [takeCall_eq]
@[simp] theorem takeCall_core : s.takeCall.core = s.core := by rw [takeCall_eq]
@[simp] theorem takeCall_banks : s.takeCall.banks = s.banks := by rw [takeCall_eq]
@[simp] theorem takeCall_bank (i : Nat) : s.takeCall.bank i = s.bank i := by rw [takeCall_eq]; rfl
@[simp] theorem takeCall_memRead (i r : Nat) : s.takeCall.memRead i r = s.memRead i r := by rw [takeCall_eq]; rfl

@[simp] theorem takeReset_cfg : s.takeReset.cfg = s.cfg := by rw [takeReset_eq]
@[simp] theorem takeReset_core : s.takeReset.core = s.core := by rw [takeReset_eq]
@[simp] theorem takeReset_banks : s.takeReset.banks = s.banks := by rw [takeReset_eq]
@[simp] theorem takeReset_bank (i : Nat) : s.takeReset.bank i = s.bank i := by rw [takeReset_eq]; rfl
@[simp] theorem takeReset_memRead (i r : Nat) : s.takeReset.memRead i r = s.memRead i r := by rw [takeReset_eq]; rfl
@[simp] theorem takeReset_drawNow (i : Nat) : s.takeReset.drawNow i = s.drawNow i := by rw [takeReset_eq]; rfl

end Inputs

end Sys2Proof.Machine
end

