-- ==== Sys2Proof/Laws/Ops.lean ====
section
/-! SUPPORT. Everything a clock edge, a platform reset and a host call can do, said once. -/

namespace Sys2Proof.Machine

/-- An edge answers a next state exactly when the user-port guard lets it, and then it is `edgeState`. -/
theorem clockEdge_next {b : BusTxn} {u : UserWord} {s t : State} :
    clockEdge b u s = .next t ↔ userOutOfRange s.cfg u = false ∧ t = edgeState b u s := by
  unfold clockEdge
  split <;> rename_i h
  · simp [h]
  · simp only [Bool.not_eq_true] at h
    simp [h, eq_comm]

theorem clockEdge_of_inRange {b : BusTxn} {u : UserWord} {s : State} (h : userOutOfRange s.cfg u = false) :
    clockEdge b u s = .next (edgeState b u s) := clockEdge_next.2 ⟨h, rfl⟩

theorem clockEdge_fault {b : BusTxn} {u : UserWord} {s : State} (h : userOutOfRange s.cfg u = true) :
    clockEdge b u s = .fault (.userAddrOutOfRange s.edgeNo u.addr) := by
  simp [clockEdge, h]

/-- No edge refuses: "A transaction is never refused" (R124). -/
theorem clockEdge_ne_refused {b : BusTxn} {u : UserWord} {s : State} {r : Refusal} : clockEdge b u s ≠ .refused r := by
  unfold clockEdge; split <;> simp

@[simp] theorem nop_inRange (cfg : CoreConfig) : userOutOfRange cfg UserWord.nop = false := rfl

/-- Successive edges, taken apart at the first one. -/
theorem clockEdges_cons {b : BusTxn} {u : UserWord} {rest : List (BusTxn × UserWord)} {s t : State} :
    clockEdges ((b, u) :: rest) s = .next t ↔
      userOutOfRange s.cfg u = false ∧ clockEdges rest (edgeState b u s) = .next t := by
  simp only [clockEdges]
  cases hu : userOutOfRange s.cfg u with
  | true => simp [clockEdge_fault hu]
  | false => simp [clockEdge_of_inRange hu]

theorem clockEdges_of_inRange {b : BusTxn} {u : UserWord} {rest : List (BusTxn × UserWord)} {s : State}
    (h : userOutOfRange s.cfg u = false) : clockEdges ((b, u) :: rest) s = clockEdges rest (edgeState b u s) := by
  simp only [clockEdges, clockEdge_of_inRange h]

/-- "The bus-output `valid`/`addr`/`read_write` fields mirror stage-2's corresponding fields every cycle" (R102). -/
@[simp] theorem egress_valid (s : State) : (egress s).valid = s.stage2.valid := by
  unfold egress; split <;> (try split) <;> rfl
@[simp] theorem egress_addr (s : State) : (egress s).addr = s.stage2.addr := by
  unfold egress; split <;> (try split) <;> rfl
@[simp] theorem egress_readWrite (s : State) : (egress s).readWrite = s.stage2.readWrite := by
  unfold egress; split <;> (try split) <;> rfl

/-- Where stage 2 is no valid read, `bus_o` is loaded with it as it stands. -/
theorem egress_of_not_read {s : State} (h : isRead s.stage2 = false) : egress s = s.stage2 := by
  simp [egress, h]

/-- A row after an edge: the written slice in the row the user port writes, what it held everywhere else. -/
theorem memRead_edgeState (b : BusTxn) (u : UserWord) (s : State) {i : Nat} (h : i < bankCount s.cfg) (r : Nat) :
    (edgeState b u s).memRead i r =
      if u.we = true ∧ r = u.addr then userSlice s.cfg i u.data else s.memRead i r := by
  unfold State.memRead
  rw [edgeState_bank b u s h]
  simp only [nextBank, nextRows, edgeState_cfg, edgeState_core]
  cases hw : u.we
  · simp
  · simp only [Memory.lookup_write, if_true, true_and]
    split <;> rfl

theorem raddr_edgeState (b : BusTxn) (u : UserWord) (s : State) {i : Nat} (h : i < bankCount s.cfg) :
    ((edgeState b u s).bank i).raddr =
      if launches s.cfg i b then b.addr.toNat - windowStart s.cfg i else (s.bank i).raddr := by
  rw [edgeState_bank b u s h]; rfl

theorem rdata_edgeState (b : BusTxn) (u : UserWord) (s : State) {i : Nat} (h : i < bankCount s.cfg) :
    ((edgeState b u s).bank i).rdata =
      if u.we = true ∧ u.addr = (s.bank i).raddr then s.drawNow i else s.memRead i (s.bank i).raddr := by
  rw [edgeState_bank b u s h]
  simp [nextBank, nextRdata, collides]

/-- The frame of the edge a port's instruction runs. -/
theorem edgeFrame_edgeState (b : BusTxn) (u : UserWord) (s : State) : EdgeFrame b u s (edgeState b u s.takeEdge) where
  stage0 := rfl
  stage1 := by simp
  stage2 := by simp
  busO := by simp
  rows := by
    intro i r hi hr
    rw [memRead_edgeState b u s.takeEdge (by simpa using hi) r]
    have : ¬ (u.we = true ∧ r = u.addr) := by rcases hr with hr | hr <;> simp [hr]
    simp [this]
  cfg := by simp
  core := by simp
  edgeNo := by simp
  draws := by simp
  inputs := by simp
  replies := by simp
  sent := by simp
  ret := by simp

theorem latches_edgeState (b : BusTxn) (u : UserWord) (s : State) : Latches u s (edgeState b u s.takeEdge) := by
  intro i hi
  rw [rdata_edgeState b u s.takeEdge (by simpa using hi)]
  simp

theorem keepsRaddr_edgeState {b : BusTxn} {u : UserWord} {s : State}
    (h : ∀ i, i < bankCount s.cfg → launches s.cfg i b = false) : KeepsRaddr s (edgeState b u s.takeEdge) := by
  intro i hi
  rw [raddr_edgeState b u s.takeEdge (by simpa using hi)]
  simp [h i hi]

/-- The edge of a bus instruction, where the user port's word is in range. -/
theorem sampleBus_of_inRange {b : BusTxn} {s : State} (h : userOutOfRange s.cfg s.userNow = false) :
    sampleBus b s = .next (edgeState b s.userNow s.takeEdge) :=
  clockEdge_of_inRange (by simpa using h)

/-- The edge of a user-port instruction, where its word is in range. -/
theorem sampleUser_of_inRange {u : UserWord} {s : State} (h : userOutOfRange s.cfg u = false) :
    sampleUser u s = .next (edgeState s.busNow u s.takeEdge) :=
  clockEdge_of_inRange (by simpa using h)

/-- An edge keeps each bank well (R25, R26, R27). -/
theorem bankOk_edgeState {b : BusTxn} {u : UserWord} {s : State} (hu : userOutOfRange s.cfg u = false) {i : Nat}
    (hi : i < bankCount s.cfg) (h : Bank.Ok s.cfg i (s.bank i)) : Bank.Ok s.cfg i ((edgeState b u s).bank i) := by
  have read_lt : ∀ r, (s.memRead i r).toNat < 2 ^ bankWidth s.cfg i := by
    intro r
    unfold State.memRead
    cases hl : (s.bank i).rows.lookup r with
    | none => exact initRow_toNat_lt _ _ _ _
    | some v => exact h.value_lt _ (Memory.mem_of_lookup hl)
  rw [edgeState_bank b u s hi]
  constructor
  · simp only [nextBank, nextRaddr]
    split
    · rename_i hl
      simp only [launches, Bool.and_eq_true] at hl
      exact owns_row_lt hl.2
    · exact h.raddr_lt
  · simp only [nextBank, nextRdata]
    split
    · exact drawFor_toNat_lt _ _ _ _
    · exact read_lt _
  · simp only [nextBank, nextRows]
    split
    · exact Memory.write_wf h.rows_wf _ _
    · exact h.rows_wf
  · simp only [nextBank, nextRows]
    split
    · rename_i hw
      intro p hp
      rcases Memory.mem_write hp with rfl | hp
      · simp only [userOutOfRange, hw, Bool.true_and, decide_eq_false_iff_not] at hu
        simpa using hu
      · exact h.row_lt p hp
    · exact h.row_lt
  · simp only [nextBank, nextRows]
    split
    · intro p hp
      rcases Memory.mem_write hp with rfl | hp
      · exact userSlice_toNat_lt _ _ _
      · exact h.value_lt p hp
    · exact h.value_lt

/-- A bank at construction is well kept. -/
theorem bankOk_initialBank (cfg : CoreConfig) (core i : Nat) : Bank.Ok cfg i (initialBank cfg core i) where
  raddr_lt := cfg.depth_pos
  rdata_lt := drawFor_toNat_lt _ _ _ _
  rows_wf := Memory.wf_nil
  row_lt := by simp [initialBank]
  value_lt := by simp [initialBank]

end Sys2Proof.Machine
end

