-- ==== Sys2Proof/Laws/Step.lean ====
section
/-! SUPPORT. What a step can do, said once: an edge, a host call, or a platform reset. -/

namespace Sys2Proof.Machine

theorem returnToHost_next {v : Returned} {s t : State} : returnToHost v s = .next t ↔ t = { s.takeCall with ret := v } := by
  simp [returnToHost, eq_comm]

/-- A decoded bus word runs the edge that samples it, with the user-port word of that edge. -/
theorem exec_decodeBus (b : BusTxn) (s : State) : exec (decodeBus s.cfg b) s = sampleBus b s := by
  obtain ⟨a, d, rw, v⟩ := b
  unfold decodeBus
  cases v <;> cases rw <;> simp <;> first | rfl | (split <;> rfl)

/-- A decoded user-port word runs the edge that samples it, with the bus word of that edge. -/
theorem exec_decodeUser (u : UserWord) (s : State) : exec (decodeUser u) s = sampleUser u s := by
  obtain ⟨a, d, we⟩ := u
  cases we <;> rfl

/-- What a host call leaves where it answers a next state: only the inputs and the host's own fields differ. -/
def HostOnly (s t : State) : Prop :=
  t = { s with inputs := t.inputs, replies := t.replies, sent := t.sent, ret := t.ret }

theorem hostOnly_returnToHost {v : Returned} {s t : State} (h : returnToHost v s = .next t) : HostOnly s t := by
  rw [returnToHost_next] at h
  subst h
  rw [takeCall_eq]
  rfl

/-- A host call's frame (R136, R166: "the core's state is not involved"). -/
theorem hostOnly_of_call {c : HostCall} {s t : State} (h : exec (decodeCall c) s = .next t) : HostOnly s t := by
  cases c with
  | bankWidths w => exact hostOnly_returnToHost h
  | window i => exact hostOnly_returnToHost h
  | maxAddr => exact hostOnly_returnToHost h
  | wordsToValue ws => exact hostOnly_returnToHost h
  | valueToWords v n => exact hostOnly_returnToHost h
  | readFromUserAddr x =>
    simp only [decodeCall, exec, execReadFromUserAddr] at h
    split at h
    · cases h
    · split at h
      · cases h
      · split at h
        · cases h
          rw [takeCall_eq]
          rfl
        · cases h

/-- Everything a step that answers a next state has done. -/
theorem step_cases {s t : State} (h : step s = .next t) :
    (userOutOfRange s.cfg s.userNow = false ∧ t = edgeState s.busNow s.userNow s.takeEdge) ∨
    HostOnly s t ∨ t = platformReset s.takeReset := by
  unfold step at h
  split at h
  · rename_i hi
    rw [exec_decodeBus] at h
    have := clockEdge_next.1 h
    refine .inl ⟨by simpa using this.1, ?_⟩
    simpa [State.busNow, hi] using this.2
  · rename_i b u rest hi
    rw [exec_decodeBus] at h
    have := clockEdge_next.1 h
    refine .inl ⟨by simpa using this.1, ?_⟩
    simpa [State.busNow, hi] using this.2
  · exact .inr (.inl (hostOnly_of_call h))
  · exact .inr (.inr (by simpa [eq_comm] using h))
  · cases h

end Sys2Proof.Machine
end

