-- ==== Sys2Proof/Tests/Slice0.lean ====
section
/-! SUPPORT. Tests and witnesses. An expected value comes from spec/95_test_vectors.md (the vector is named) or from the
example of a rule; a witness shows that the hypotheses of a statement can be met. -/

namespace Sys2Proof.Tests

open Sys2Proof Sys2Proof.Machine

/-- K33, the configuration of most vectors. -/
def k33 : CoreConfig := CoreConfig.k33

/-- `DEPTH = 5, WIDTH = 16` (V45, V46). -/
def deep5 : CoreConfig := ⟨5, 16, 0, by decide, by decide, by decide⟩

/-- `DEPTH = 1, WIDTH = 40, BASE_ADDR = 5` (V25). -/
def depth1 : CoreConfig := ⟨1, 40, 5, by decide, by decide, by decide⟩

/-- `BASE_ADDR = 0xFFFC, DEPTH = 4, WIDTH = 16` (V17). -/
def top : CoreConfig := ⟨4, 16, 0xFFFC, by decide, by decide, by decide⟩

/-- Core A of P3. -/
def cfgA : CoreConfig := ⟨2, 16, 0, by decide, by decide, by decide⟩

/-- Core B of P3. -/
def cfgB : CoreConfig := ⟨2, 20, 2, by decide, by decide, by decide⟩

/-- A K33 core whose banks stand as given. -/
def k33With (b0 b1 b2 : Bank) : State := { State.initial k33 0 with banks := [b0, b1, b2] }

/-- K33 with row 2 written all ones (T6), row 0 of bank 0 and bank 1 written, and the last row of bank 2 written. -/
def written : State :=
  k33With ⟨0, 0x5A5A, [(0, 0x1234), (2, 0xFFFF)]⟩ ⟨0, 0xBEEF, [(0, 0x7777), (2, 0xFFFF)]⟩ ⟨2, 1, [(2, 1), (3, 1)]⟩

/-- The next state of an answer, or `s` where there is none. -/
def nextOr (s : State) : Answer → State
  | .next t => t
  | _ => s

/-- `s` with one edge at hand. -/
def atEdge (b : BusTxn) (u : UserWord) (s : State) : State := { s with inputs := [.edge b u] }

/-- `s` with a host call at hand and a transport reply to come. -/
def atCall (c : HostCall) (reply : List Int) (s : State) : State := { s with inputs := [.call c], replies := [reply] }

/-! ## Well-formedness: an ill-formed term for each check, refused -/

theorem test_wf_busReadOwned : (Instr.busReadOwned 112 0).wf k33 = false ∧ (Instr.busReadOwned 111 0).wf k33 = true := by decide
theorem test_wf_busReadUnowned : (Instr.busReadUnowned 100 0).wf k33 = false ∧ (Instr.busReadUnowned 99 0).wf k33 = true := by decide
theorem test_wf_busWriteOwned : (Instr.busWriteOwned 99 0).wf k33 = false ∧ (Instr.busWriteOwned 100 0).wf k33 = true := by decide
theorem test_wf_busWriteUnowned : (Instr.busWriteUnowned 111 0).wf k33 = false ∧ (Instr.busWriteUnowned 112 0).wf k33 = true := by decide
theorem test_wf_uportWrite_addr : (Instr.uportWrite 4 0).wf k33 = false ∧ (Instr.uportWrite 3 0x1FFFFFFFF).wf k33 = true := by decide
theorem test_wf_uportWrite_data : (Instr.uportWrite 0 0x200000000).wf k33 = false := by decide
theorem test_wf_uportNop_addr : (Instr.uportNop 8 0).wf deep5 = false ∧ (Instr.uportNop 7 0xFFFF).wf deep5 = true := by decide
theorem test_wf_uportNop_data : (Instr.uportNop 0 0x10000).wf deep5 = false := by decide
theorem test_wf_bankWidths : (Instr.bankWidths 0).wf k33 = false ∧ (Instr.bankWidths 1).wf k33 = true := by decide
theorem test_wf_window : (Instr.window 3).wf k33 = false ∧ (Instr.window 2).wf k33 = true := by decide
theorem test_wf_valueToWords : (Instr.valueToWords 0 4294967296).wf k33 = false ∧ (Instr.valueToWords (-1) 4294967295).wf k33 = true := by decide

/-! ## Decoding: words written out from the encodings of R61, R63, R65 -/

/-- V30: valid 1, read_write 0, data 0, addr 100. -/
theorem test_decode_busReadOwned : decodeTableWord 34 0x200000064 = some (.busReadOwned 100 0) := rfl
/-- V31, the last address of the window. -/
theorem test_decode_busReadOwned_last : decodeTableWord 40 0x20000006F = some (.busReadOwned 111 0) := rfl
/-- V33, below the window. -/
theorem test_decode_busReadUnowned : decodeTableWord 34 0x212340063 = some (.busReadUnowned 99 0x1234) := rfl
/-- V34, above the window. -/
theorem test_decode_busReadUnowned_above : decodeTableWord 40 0x2BEEF0070 = some (.busReadUnowned 112 0xBEEF) := rfl
/-- V35. -/
theorem test_decode_busWriteOwned : decodeTableWord 34 0x300AA0068 = some (.busWriteOwned 104 0x00AA) := rfl
/-- V36. -/
theorem test_decode_busWriteUnowned : decodeTableWord 34 0x3000700C8 = some (.busWriteUnowned 200 7) := rfl
/-- V37, V38: valid 0 is BUS_IDLE whatever the other fields. -/
theorem test_decode_busIdle :
    decodeTableWord 34 0x0FFFF0065 = some (.busIdle false 101 0xFFFF) ∧
    decodeTableWord 34 0x1FFFF0065 = some (.busIdle true 101 0xFFFF) := ⟨rfl, rfl⟩
/-- R65, log entry 9: user_we in bit 0, user_addr in bits 2..1, user_data in bits 35..3 on K33. -/
theorem test_decode_uportWrite :
    decode k33 (.user (1 + 2 * 2 + 8 * 0x1FFFFFFFF)) = .ok (.uportWrite 2 0x1FFFFFFFF) ∧
    decodeTableWord 8 1 = some (.uportWrite 0 0) := ⟨rfl, rfl⟩
theorem test_decode_uportNop :
    decode k33 (.user (0 + 2 * 3 + 8 * 5)) = .ok (.uportNop 3 5) ∧ decodeTableWord 1 0 = some (.uportNop 0 0) := ⟨rfl, rfl⟩
theorem test_decode_bankWidths : decode k33 (.call (.bankWidths 33)) = .ok (.bankWidths 33) := rfl
theorem test_decode_window : decode k33 (.call (.window 2)) = .ok (.window 2) := rfl
theorem test_decode_maxAddr : decode k33 (.call .maxAddr) = .ok .maxAddr := rfl
theorem test_decode_wordsToValue : decode k33 (.call (.wordsToValue [0, 1])) = .ok (.wordsToValue [0, 1]) := rfl
theorem test_decode_valueToWords : decode k33 (.call (.valueToWords 65535 1)) = .ok (.valueToWords 65535 1) := rfl
theorem test_decode_readFromUserAddr :
    decode k33 (.call (.readFromUserAddr (.one 2))) = .ok (.readFromUserAddr (.one 2)) := rfl
/-- A number that is no word of its port is refused by name, and the widest word is not. -/
theorem test_decode_tooWide :
    decode k33 (.bus 0x400000000) = .error .busWordTooWide ∧ decode k33 (.bus 0x3FFFFFFFF) = .ok (.busWriteUnowned 0xFFFF 0xFFFF) ∧
    decode k33 (.user (2 ^ 36)) = .error .userWordTooWide ∧
    decode k33 (.user (2 ^ 36 - 1)) = .ok (.uportWrite 3 0x1FFFFFFFF) := ⟨rfl, rfl, rfl, rfl⟩
/-- The script spellings of R71 and the encodings of P1 and P3. -/
theorem test_script :
    (BusOp.rd 102).txn.pack = 0x200000066 ∧ (BusOp.wr 4 0x1234).txn.pack = 0x312340004 ∧
    (BusOp.rdData 9 0x5555).txn.pack = 0x255550009 ∧ BusOp.idle.txn.pack = 0 ∧
    (BusOp.raw 0x0FFFF0065).txn = ⟨101, 0xFFFF, false, false⟩ ∧
    (UserOp.uw 2 0x1FFFFFFFF).word = ⟨2, 0x1FFFFFFFF, true⟩ ∧ UserOp.dash.word = ⟨0, 0, false⟩ := by decide
theorem test_scriptLine : scriptLine (.rd 102) .dash = .edge ⟨102, 0, false, true⟩ ⟨0, 0, false⟩ := by decide

/-! ## Configuration, partitioner, decoder, construction -/

/-- V1 to V11 (R80). -/
theorem test_bankWidths :
    bankWidths 1 = [1] ∧ bankWidths 8 = [8] ∧ bankWidths 15 = [15] ∧ bankWidths 16 = [16] ∧ bankWidths 17 = [16, 1] ∧
    bankWidths 31 = [16, 15] ∧ bankWidths 32 = [16, 16] ∧ bankWidths 33 = [16, 16, 1] ∧ bankWidths 48 = [16, 16, 16] ∧
    bankWidths 64 = [16, 16, 16, 16] ∧ bankWidths 65 = [16, 16, 16, 16, 1] := by decide
/-- V12 (R9), as far as a configuration of one narrow bank gives each DEPTH. -/
theorem test_addrWidth :
    addrWidth ⟨1, 8, 0, by decide, by decide, by decide⟩ = 0 ∧ addrWidth ⟨2, 8, 0, by decide, by decide, by decide⟩ = 1 ∧
    addrWidth ⟨3, 8, 0, by decide, by decide, by decide⟩ = 2 ∧ addrWidth ⟨4, 8, 0, by decide, by decide, by decide⟩ = 2 ∧
    addrWidth ⟨5, 8, 0, by decide, by decide, by decide⟩ = 3 ∧ addrWidth ⟨8, 8, 0, by decide, by decide, by decide⟩ = 3 ∧
    addrWidth ⟨9, 8, 0, by decide, by decide, by decide⟩ = 4 ∧
    addrWidth ⟨65536, 8, 0, by decide, by decide, by decide⟩ = 16 := by decide
/-- V13, V14, V15 (R160). -/
theorem test_configError :
    construct (.integer (-1)) (.integer 8) 0 0 = .refused .configError ∧
    construct (.integer 0) (.integer 8) 0 0 = .refused .configError ∧
    construct (.integer 4) (.integer 0) 0 0 = .refused .configError ∧
    construct (.integer 4) .missing 0 0 = .refused .configError ∧
    construct .nonInteger (.integer 8) 0 0 = .refused .configError := ⟨rfl, rfl, rfl, rfl, rfl⟩
/-- V17, V18, V19 (R10, R161). -/
theorem test_configOverflow :
    construct (.integer 4) (.integer 16) 0xFFFC 0 = .core (State.initial top 0) ∧ maxAddr top = 0xFFFF ∧
    construct (.integer 4) (.integer 16) 0xFFFD 0 = .refused .configAddressOverflow ∧
    construct (.integer 16) (.integer 32) 0xFFF0 0 = .refused .configAddressOverflow := ⟨rfl, rfl, rfl, rfl⟩
/-- V21, V22, V23, V27: bank and row of an address, and the addresses outside. -/
theorem test_selectBank :
    selectBank k33 100 = some 0 ∧ selectBank k33 103 = some 0 ∧ selectBank k33 104 = some 1 ∧ selectBank k33 107 = some 1 ∧
    selectBank k33 108 = some 2 ∧ selectBank k33 111 = some 2 ∧ selectBank k33 110 = some 2 ∧ 110 - windowStart k33 2 = 2 ∧
    selectBank k33 99 = none ∧ selectBank k33 112 = none ∧ selectBank k33 0 = none ∧ selectBank k33 0xFFFF = none ∧
    selectBank top 0xFFFF = some 0 ∧ 0xFFFF - windowStart top 0 = 3 := by decide
/-- V24 (R84). -/
theorem test_owns : owns k33 0 103 = true ∧ owns k33 0 104 = false ∧ owns k33 1 104 = true ∧ owns k33 1 103 = false := by decide
/-- V25 (R91). -/
theorem test_depth1 :
    bankWidths 40 = [16, 16, 8] ∧ (List.range 3).map (fun i => (windowStart depth1 i, windowStop depth1 i)) = [(5, 5), (6, 6), (7, 7)] ∧
    maxAddr depth1 = 7 ∧ addrWidth depth1 = 0 := by decide
/-- The codes of 60_exceptions.md section 1. -/
theorem test_codes :
    ErrorKind.configError.code = "E1" ∧ ErrorKind.configAddressOverflow.code = "E2" ∧ ErrorKind.unrecognizedOption.code = "W1" ∧
    ErrorKind.rangeError.code = "E3" ∧ ErrorKind.userAddrOutOfRange.code = "E4" ∧ ErrorKind.hostAddrOutOfRange.code = "E5" ∧
    ErrorKind.transportProtocol.code = "E6" ∧
    (Fault.userAddrOutOfRange 3 5).kind = some .userAddrOutOfRange := by decide

/-! ## One step per instruction -/

/-- V31, R106: RD 111 launches row 3 of bank 2 and no other bank. -/
theorem test_busReadOwned :
    (nextOr written (exec (.busReadOwned 111 0) written)).banks.map Bank.raddr = [0, 0, 3] ∧
    (nextOr written (exec (.busReadOwned 111 0) written)).stage0 = ⟨111, 0, false, true⟩ := by decide
/-- V30, R102: with RD 100 in stage 2, `bus_o` is loaded with bank 0's read data, whatever word is sampled. -/
theorem test_egress_owned :
    (nextOr written (exec (.busReadOwned 103 7) { written with stage2 := ⟨100, 0x5555, false, true⟩ })).busO.pack = 0x25A5A0064 := by
  decide
/-- V34: an unowned read changes no `raddr`. -/
theorem test_busReadUnowned :
    (nextOr written (exec (.busReadUnowned 112 0xBEEF) written)).banks.map Bank.raddr = [0, 0, 2] := by decide
/-- V34, R102: its data is kept at egress. -/
theorem test_egress_unowned :
    (nextOr written (exec (.busReadUnowned 99 1) { written with stage2 := ⟨112, 0xBEEF, false, true⟩ })).busO.pack = 0x2BEEF0070 := by
  decide
/-- V35: a write the core owns launches nothing and changes no row. -/
theorem test_busWriteOwned :
    (nextOr written (exec (.busWriteOwned 104 0x00AA) written)).banks.map Bank.raddr = [0, 0, 2] ∧
    (nextOr written (exec (.busWriteOwned 104 0x00AA) written)).memRead 1 0 = 0x7777 := by decide
/-- V35, R102: it leaves stage 2 as it came. -/
theorem test_egress_write :
    (nextOr written (exec (.busWriteOwned 104 1) { written with stage2 := ⟨104, 0x00AA, true, true⟩ })).busO.pack = 0x300AA0068 := by
  decide
/-- V36. -/
theorem test_busWriteUnowned :
    (nextOr written (exec (.busWriteUnowned 200 7) written)).stage0.pack = 0x3000700C8 := by decide
/-- V37: an idle word with an address in the window launches nothing. -/
theorem test_busIdle :
    (nextOr written (exec (.busIdle false 101 0xFFFF) written)).banks.map Bank.raddr = [0, 0, 2] ∧
    (nextOr written (exec (.busIdle false 101 0xFFFF) written)).stage0.pack = 0x0FFFF0065 := by decide
/-- V37, R102: nor is its data replaced. -/
theorem test_egress_idle :
    (nextOr written (exec (.busIdle true 1 1) { written with stage2 := ⟨101, 0xFFFF, false, false⟩ })).busO.pack = 0x0FFFF0065 := by
  decide
/-- V42: each bank takes its slice. -/
theorem test_uportWrite :
    (List.range 3).map (fun i => (nextOr written (exec (.uportWrite 1 0x0ABCD1234) written)).memRead i 1) = [0x1234, 0xABCD, 0] ∧
    (List.range 3).map (fun i => (nextOr written (exec (.uportWrite 3 0x100000000) written)).memRead i 3) = [0, 0, 1] := by decide
/-- V45 (R111) and V46 (R113), DEPTH 5. -/
theorem test_uportWrite_fault :
    exec (.uportWrite 5 0) (State.initial deep5 0) = .fault (.userAddrOutOfRange 0 5) ∧
    ∃ t, exec (.uportNop 7 0) (State.initial deep5 0) = .next t := ⟨rfl, _, rfl⟩
/-- R105: with no side-channel write the read ports latch the rows `raddr` names (V48's rule). -/
theorem test_uportNop :
    (nextOr written (exec (.uportNop 3 9) written)).banks.map Bank.rdata = [0x1234, 0x7777, 1] ∧
    (nextOr written (exec (.uportNop 3 9) written)).memRead 2 3 = 1 := by decide
/-- V47 (R112): the latch of the written row is the draw, and the write takes effect. -/
theorem test_collision :
    ((nextOr written (exec (.uportWrite 0 5) written)).bank 0).rdata = drawFor k33 0 1 0 ∧
    (nextOr written (exec (.uportWrite 0 5) written)).memRead 0 0 = 5 := ⟨rfl, by decide⟩
/-- V8. -/
theorem test_exec_bankWidths : (nextOr written (exec (.bankWidths 33) written)).ret = .widths [16, 16, 1] := by decide
/-- R80 states no result for a width of 0: the call runs, nothing but `ret` changes (log entry 10). -/
theorem test_exec_bankWidths_zero : exec (.bankWidths 0) written = .next { written with ret := .widths Config.widthsOfZero } := rfl
/-- V20. -/
theorem test_exec_window :
    (nextOr written (exec (.window 0) written)).ret = .window 100 103 ∧
    (nextOr written (exec (.window 2) written)).ret = .window 108 111 := by decide
/-- R83 states no result for an index past the banks: the call runs (log entry 10). -/
theorem test_exec_window_none : ∃ a b, exec (.window 3) written = .next { written with ret := .window a b } := ⟨_, _, rfl⟩
/-- V88. -/
theorem test_exec_maxAddr :
    (nextOr written (exec .maxAddr written)).ret = .address 111 ∧
    (nextOr written (exec .maxAddr (State.initial top 0))).ret = .address 65535 := by decide
/-- V60 to V64, V66 to V69. -/
theorem test_exec_wordsToValue :
    wordsToValue [] = some 0 ∧ wordsToValue [65535] = some 65535 ∧ wordsToValue [-1] = some 65535 ∧
    wordsToValue [-32768] = some 32768 ∧ wordsToValue [32768] = some 32768 ∧ wordsToValue [1, 0] = some 1 ∧
    wordsToValue [0, 0, 0, 1] = some 281474976710656 ∧ wordsToValue [-1, -1] = some 4294967295 ∧
    wordsToValue [0xFFFF, 0xFFFF, 1] = some 8589934591 ∧
    (nextOr written (exec (.wordsToValue [0, 1]) written)).ret = .value 65536 := by decide
/-- V65. -/
theorem test_exec_wordsToValue_rangeError :
    wordsToValue [65536] = none ∧ wordsToValue [-32769] = none ∧
    (nextOr written (exec (.wordsToValue [1, 70000]) written)).ret = .rangeError := by decide
/-- T7, V70, V72, V73, V76, V77. -/
theorem test_exec_valueToWords :
    valueToWords 0 0 = some [] ∧ valueToWords 0 3 = some [0, 0, 0] ∧ valueToWords 4294967295 2 = some [65535, 65535] ∧
    valueToWords 0x1FFFFFFFF 3 = some [65535, 65535, 1] ∧ valueToWords 65536 2 = some [0, 1] ∧
    (wordsToValue [-1, 2]).map (fun v => valueToWords v 2) = some (some [65535, 2]) ∧
    (nextOr written (exec (.valueToWords 65535 1) written)).ret = .words [65535] := by decide
/-- V71, V74, V75. -/
theorem test_exec_valueToWords_rangeError :
    valueToWords 1 0 = none ∧ valueToWords 4294967296 2 = none ∧ valueToWords 65536 1 = none ∧
    (nextOr written (exec (.valueToWords (-1) 1) written)).ret = .rangeError := by decide
/-- V80, V82. -/
theorem test_exec_readFromUserAddr :
    (nextOr written (exec (.readFromUserAddr (.one 2)) { written with replies := [[0xFFFF, 0xFFFF, 1]] })).sent = [102, 106, 110] ∧
    (nextOr written (exec (.readFromUserAddr (.one 2)) { written with replies := [[0xFFFF, 0xFFFF, 1]] })).ret = .value 8589934591 ∧
    requestAddrs k33 [0, 2] = [100, 104, 108, 102, 106, 110] ∧
    readResult k33 (.many [0, 2]) [0xBEEF, 0xDEAD, 1, 0xFFFF, 0xFFFF, 1] = .values [8030895855, 8589934591] ∧
    readResult k33 (.many [2]) [0xFFFF, 0xFFFF, 1] = .values [8589934591] := by decide
/-- V85, V86, U10. -/
theorem test_exec_readFromUserAddr_faults :
    exec (.readFromUserAddr (.one 4)) written = .fault (.hostAddrOutOfRange 4) ∧
    exec (.readFromUserAddr (.one (-1))) written = .fault (.hostAddrOutOfRange (-1)) ∧
    exec (.readFromUserAddr (.one 2)) { written with replies := [[0xFFFF, 0xFFFF]] } = .fault (.transportProtocol 3 2) ∧
    exec (.readFromUserAddr (.one 3)) written = .fault .transportNeverReplies := ⟨rfl, rfl, rfl, rfl⟩
/-- R182: a platform reset clears the pipeline and keeps the rows. -/
theorem test_platformReset :
    (platformReset { written with stage2 := ⟨1, 2, true, true⟩, busO := ⟨1, 2, true, true⟩ }).busO.pack = 0 ∧
    (platformReset written).memRead 0 2 = 0xFFFF ∧ (platformReset written).banks.map Bank.raddr = [0, 0, 0] := by decide
/-- The very next step runs the word that withFetchWord places. -/
theorem test_withFetchWord :
    step (State.reset.withFetchWord 40 0x20000006F) = exec (.busReadOwned 111 0) (State.reset.withFetchWord 40 0x20000006F) ∧
    step (State.reset.withFetchWord 8 1) = exec (.uportWrite 0 0) (State.reset.withFetchWord 8 1) := ⟨rfl, rfl⟩

/-! ## Witnesses: the hypotheses of each statement, met together, at the boundary values of each clause -/

/-- BankWidthsPartitionTheRow, BankWidthsReturnsThePartition: a width for each branch. -/
theorem witness_bankWidths :
    (1 ≤ 1 ∧ 1 < 16) ∧ (16 ≤ 16 ∧ 16 % 16 = 0) ∧ (16 ≤ 17 ∧ 17 % 16 ≠ 0) ∧ 0 + 1 < (bankWidths 17).length := by decide
/-- BankCountIsCeilOfWidth: its three inner hypotheses on K33. -/
theorem witness_bankCount : k33.width ≤ 16 * 3 ∧ 1 + 1 < bankCount k33 := by decide
/-- AddrWidthIsCeilLog2. -/
theorem witness_addrWidth : k33.depth ≤ 2 ^ 2 ∧ depth1.depth ≤ 2 ^ 0 := by decide
/-- WindowsTileTheOwningWindow, BankSelectorIsOneHot: two banks, and an owned address at each end of a window. -/
theorem witness_windows :
    0 < bankCount k33 ∧ 2 < bankCount k33 ∧ (0 ≠ 2) ∧ owns k33 0 100 = true ∧ owns k33 0 103 = true ∧ owns k33 2 108 = true ∧
    owns k33 2 111 = true ∧ inWindow k33 99 = false ∧ inWindow k33 112 = false := by decide
/-- OwnedAddressDecodesToBankAndRow: both ends of the window, and the last row of the last bank. -/
theorem witness_decodeAddress :
    (k33.base ≤ 100 ∧ 100 ≤ maxAddr k33) ∧ (k33.base ≤ 111 ∧ 111 ≤ maxAddr k33) ∧ (2 < bankCount k33 ∧ 3 < k33.depth) := by decide
/-- ConstructionChecksInOrder: a non-positive value, and V18's overflow. -/
theorem witness_construction :
    (∃ n : Int, n ≤ 0 ∧ RawValue.integer 0 = .integer n) ∧ (1 ≤ 4 ∧ 1 ≤ 16 ∧ 0xFFFF < 0xFFFD + 4 * ((16 + 15) / 16) - 1) :=
  ⟨⟨0, by decide, rfl⟩, by decide⟩
/-- ConstructionValues: a bank and a row of K33. -/
theorem witness_constructionValues : 2 < bankCount k33 ∧ 3 < k33.depth := by decide
/-- NoValidOutputBeforeTheFourthState: three edges of valid reads from construction. -/
theorem witness_fourthState :
    ∃ t, clockEdges (List.replicate 3 (BusTxn.read 100, UserWord.nop)) (State.initial k33 0) = .next t := ⟨_, rfl⟩
/-- PlatformResetKeepsStorage. -/
theorem witness_platformReset : ({ written with inputs := [.reset] } : State).inputs = .reset :: [] := rfl
/-- StepRunsTheDecodedInstruction: an edge, a call, and no input left. -/
theorem witness_step :
    (atEdge (BusTxn.read 100) UserWord.nop written).inputs = .edge (BusTxn.read 100) UserWord.nop :: [] ∧
    (atCall .maxAddr [] written).inputs = .call .maxAddr :: [] ∧ written.inputs = [] := ⟨rfl, rfl, rfl⟩
/-- FetchedWordRunsNext: a bus word and a user-port word, from the reset state. -/
theorem witness_fetchedWord :
    State.reset.cfg = CoreConfig.k33 ∧ decodeTableWord 40 0x200000064 = some (.busReadOwned 100 0) ∧
    decodeTableWord 8 1 = some (.uportWrite 0 0) := ⟨rfl, rfl, rfl⟩
/-- The user-port guard of EdgeShiftsThePipeline, EgressReassemblesTheResponse, LaunchLatchesTheRow, ReadPortLatchesTheOldRow:
no write, and a write of the last row. -/
theorem witness_userInRange :
    userOutOfRange written.cfg UserWord.nop = false ∧ userOutOfRange written.cfg ⟨3, 0x1FFFFFFFF, true⟩ = false := by decide
/-- EgressReassemblesTheResponse: an owned read in stage 2, and each way of not being one. -/
theorem witness_egress :
    (2 < bankCount k33 ∧ owns k33 2 (111 : Word).toNat = true) ∧
    (∀ i, i < bankCount k33 → owns k33 i (112 : Word).toNat = false) := by decide
/-- NarrowBankResponseIsZeroExtended: RD 111 in stage 2; bank 2 has one bit. -/
theorem witness_narrow :
    2 < bankCount k33 ∧ launches k33 2 ({ written with stage2 := BusTxn.read 111 } : State).stage2 = true ∧ bankWidth k33 2 = 1 ∧
    ∃ t, clockEdge BusTxn.idle UserWord.nop { written with stage2 := BusTxn.read 111 } = .next t :=
  ⟨by decide, by decide, by decide, _, rfl⟩
/-- LaunchLatchesTheRow, ReadPortLatchesTheOldRow: a launch, none, a collision, none. -/
theorem witness_launch :
    owns written.cfg 2 (BusTxn.read 111).addr.toNat = true ∧ owns written.cfg 1 (BusTxn.read 111).addr.toNat = false ∧
    (⟨2, 0, true⟩ : UserWord).addr = (written.bank 2).raddr ∧ (⟨2, 0, true⟩ : UserWord).addr ≠ (written.bank 0).raddr := by decide
/-- PortsActIndependently: two edges of one state with different words on both ports. -/
theorem witness_independent :
    (∃ t, clockEdge (BusTxn.read 100) UserWord.nop written = .next t) ∧
    (∃ t, clockEdge (BusTxn.read 104) ⟨1, 7, true⟩ written = .next t) := ⟨⟨_, rfl⟩, _, rfl⟩
/-- StepKeepsTheInvariant, IsolatedTransportReadsTheLogicalRow: a state with listed rows meets the invariant and steps. -/
theorem witness_inv : written.Inv ∧ (∃ t, step written = .next t) ∧ 3 < written.cfg.depth := by
  refine ⟨⟨rfl, ?_⟩, ⟨_, rfl⟩, by decide⟩
  have h : ∀ i, i < 3 → Bank.Ok k33 i (written.bank i) := by
    intro i hi
    match i, hi with
    | 0, _ => exact ⟨by decide, by decide, by decide, by decide, by decide⟩
    | 1, _ => exact ⟨by decide, by decide, by decide, by decide, by decide⟩
    | 2, _ => exact ⟨by decide, by decide, by decide, by decide, by decide⟩
  exact h
/-- StepKeepsTheConfiguration. -/
theorem witness_configuration : ∃ t, step (atCall (.window 2) [] written) = .next t := ⟨_, rfl⟩
/-- OnlyTheSideChannelWritesStorage: a step that changes row 2 of bank 0. -/
theorem witness_sideChannelWrites :
    ∃ t, step (atEdge BusTxn.idle ⟨2, 7, true⟩ written) = .next t ∧ 0 < bankCount written.cfg ∧
      t.memRead 0 2 ≠ (atEdge BusTxn.idle ⟨2, 7, true⟩ written).memRead 0 2 := ⟨_, rfl, by decide, by decide⟩
/-- DisciplinedRunsNeverStop: an edge that writes the last row, and a platform reset. -/
theorem witness_disciplined :
    ∀ x ∈ ({ written with inputs := [.edge (BusTxn.read 100) ⟨3, 1, true⟩, .reset] } : State).inputs,
      Input.disciplined written.cfg x := by
  simp [Input.disciplined, userOutOfRange, written, k33With, k33, CoreConfig.k33]
/-- OwnedReadLaunchesItsRow: both ends of the window. -/
theorem witness_ownedRead :
    inWindow written.cfg (100 : Word).toNat = true ∧ inWindow written.cfg (111 : Word).toNat = true ∧
    userOutOfRange written.cfg written.userNow = false := by decide
/-- UnownedReadLaunchesNothing: the addresses next to the window, and the ends of the bus space. -/
theorem witness_unownedRead :
    inWindow written.cfg (99 : Word).toNat = false ∧ inWindow written.cfg (112 : Word).toNat = false ∧
    inWindow written.cfg (0 : Word).toNat = false ∧ inWindow written.cfg (0xFFFF : Word).toNat = false ∧
    userOutOfRange written.cfg written.userNow = false := by decide
/-- BusWritesChangeNoStorage, IdleOnlyShifts: the user port at hand writes the last row. -/
theorem witness_userNow :
    userOutOfRange written.cfg (atEdge (BusTxn.read 100) ⟨3, 1, true⟩ written).userNow = false := by decide
/-- PassThroughAfterFourEdges, ChainPassesUnownedWords: an unowned read, an owned write, an idle word inside the window. -/
theorem witness_passThrough :
    isOwnedRead k33 (BusTxn.read 112) = false ∧ isOwnedRead k33 ⟨104, 1, true, true⟩ = false ∧
    isOwnedRead k33 ⟨104, 1, false, false⟩ = false ∧ userOutOfRange k33 ⟨3, 0, true⟩ = false := by decide
/-- OwnedReadIsAnsweredAfterFourEdges: RD 111, with and without an owned read of bank 2 next, and with and without a write of
the row at the last latch. -/
theorem witness_ownedReadAnswered :
    2 < bankCount k33 ∧ launches k33 2 (BusTxn.read 111) = true ∧ launches k33 2 (BusTxn.read 108) = true ∧
    launches k33 2 (BusTxn.read 107) = false ∧ userOutOfRange k33 ⟨3, 0, true⟩ = false ∧
    (⟨3, 0, true⟩ : UserWord).addr = rowOf k33 2 (111 : Word) ∧ (⟨0, 0, true⟩ : UserWord).addr = rowOf k33 2 (108 : Word) ∧
    UserWord.nop.we = false := by decide
/-- BackToBackReadsOfOneBankCollide, WriteToReadDistance: bank 0 of K33. -/
theorem witness_sameBank :
    0 < bankCount k33 ∧ launches k33 0 (BusTxn.read 100) = true ∧ launches k33 0 (BusTxn.read 103) = true ∧
    launches k33 0 (BusTxn.read 104) = false := by decide
/-- SideChannelWritesOneRowOfEveryBank, WrittenRowReadsBack: the last row, all ones. -/
theorem witness_sideChannel : 0 < written.cfg.depth ∧ 3 < written.cfg.depth ∧ 0x1FFFFFFFF < 2 ^ written.cfg.width := by decide
/-- OutOfRangeSideChannelWriteFaults: the first address past the rows, an edge that faults, and DEPTH 5. -/
theorem witness_outOfRange :
    deep5.depth ≤ 5 ∧ 5 < 2 ^ addrWidth deep5 ∧
    clockEdge BusTxn.idle ⟨5, 0, true⟩ (State.initial deep5 0) = .fault (.userAddrOutOfRange 0 5) ∧
    (atEdge (BusTxn.read 0) ⟨5, 0, true⟩ (State.initial deep5 0)).userNow.we = true ∧
    (State.initial deep5 0).cfg.depth ≤ (atEdge (BusTxn.read 0) ⟨5, 0, true⟩ (State.initial deep5 0)).userNow.addr :=
  ⟨by decide, by decide, rfl, rfl, by decide⟩
/-- OperandsWithoutAStatedResultRun: the first index past the banks, the first n_words that is no u32, a value of each sign. -/
theorem witness_noStatedResult : bankCount written.cfg ≤ 3 ∧ 2 ^ 32 ≤ 4294967296 ∧ (-1 : Int) < 0 ∧ (0 : Int) ≤ 0 := by decide
/-- The fault of a side-channel write names the edge at hand: the sixth edge after construction is edge 5 (R164). -/
theorem test_faultEdge :
    ∃ t, clockEdges (List.replicate 5 (BusTxn.idle, UserWord.nop)) (State.initial deep5 0) = .next t ∧
      clockEdge BusTxn.idle ⟨7, 0, true⟩ t = .fault (.userAddrOutOfRange 5 7) := ⟨_, rfl, rfl⟩
/-- WindowReturnsTheBankRange. -/
theorem witness_window : 0 < bankCount written.cfg ∧ 2 < bankCount written.cfg := by decide
/-- WordsToValueSumsTheWords, CodecRoundTrips: the ends of the union, and a word past each. -/
theorem witness_words :
    (∀ w ∈ [(-32768 : Int), 65535], IsCodecWord w) ∧ (∃ w ∈ [(1 : Int), 65536], ¬ IsCodecWord w) ∧
    (∃ w ∈ [(-32769 : Int)], ¬ IsCodecWord w) := by
  simp [IsCodecWord]
/-- ValueToWordsSplitsTheValue, CodecRoundTrips: the greatest value that fits, the first that does not, a negative one, and
the greatest `n_words`. -/
theorem witness_value :
    2 < 2 ^ 32 ∧ 4294967295 < 2 ^ 32 ∧ ((0 : Int) ≤ 4294967295 ∧ (4294967295 : Int) < 2 ^ (16 * 2)) ∧
    (2 : Int) ^ (16 * 2) ≤ 4294967296 ∧ (-1 : Int) < 0 ∧ 0 < 2 ^ (16 * 0) := by decide
/-- CodecAgreesWithTheBankLayout: a row of K33, and the words of its banks. -/
theorem witness_layout :
    0x1FFFFFFFF < 2 ^ k33.width ∧
    (∀ i, i < bankCount k33 → ([0xFFFF, 0xFFFF, 1].getD i (0 : Word)).toNat < 2 ^ bankWidth k33 i) := by decide
/-- HostReadConvertsTheReply: one address, a sequence of two, and a word outside the union; each with a reply of its length. -/
theorem witness_hostRead :
    ({ written with replies := [[0xFFFF, 0xFFFF, 1]] } : State).replies = [0xFFFF, 0xFFFF, 1] :: [] ∧
    IsLogicalAddr k33 0 ∧ IsLogicalAddr k33 3 ∧ [(0xFFFF : Int), 0xFFFF, 1].length = bankCount k33 ∧
    (∀ w ∈ [(0xBEEF : Int), 0xDEAD, 1, 0xFFFF, 0xFFFF, 1], IsCodecWord w) ∧
    [(0xBEEF : Int), 0xDEAD, 1, 0xFFFF, 0xFFFF, 1].length = [(0 : Int), 3].length * bankCount k33 ∧
    (∃ w ∈ [(0 : Int), 65536, 0], ¬ IsCodecWord w) := by
  refine ⟨rfl, ?_, ?_, rfl, ?_, rfl, ?_⟩ <;> simp [IsLogicalAddr, IsCodecWord, k33, CoreConfig.k33]
/-- HostReadGroupsByAddress, HostReadAddressesAreOwned: the last bank of the last address of a request. -/
theorem witness_request :
    1 < [(0 : Int), 3].length ∧ 2 < bankCount k33 ∧ (∀ a ∈ [(0 : Int), 3], IsLogicalAddr k33 a) ∧
    111 ∈ requestAddrs k33 [0, 3] ∧ 3 < k33.depth := by
  refine ⟨by decide, by decide, ?_, by decide, by decide⟩
  simp [IsLogicalAddr, k33, CoreConfig.k33]
/-- HostReadFaultsInOrder: an address just outside on each side, no reply, and a reply of the wrong length. -/
theorem witness_hostFaults :
    (∀ c ∈ [(0 : Int), 3], IsLogicalAddr written.cfg c) ∧ ¬ IsLogicalAddr written.cfg 4 ∧ ¬ IsLogicalAddr written.cfg (-1) ∧
    written.replies = [] ∧ [(0xFFFF : Int), 0xFFFF].length ≠ (addrList (.one 2)).length * bankCount written.cfg := by
  refine ⟨?_, ?_, ?_, rfl, by decide⟩ <;> simp [IsLogicalAddr, written, k33With, k33, CoreConfig.k33, State.initial]
/-- EmptyHostReadReturnsEmpty. -/
theorem witness_emptyRead : ({ written with replies := [[]] } : State).replies = [] :: [] := rfl
/-- HostWriteIsRefused. -/
theorem witness_hostWrite : ({ written with inputs := [.hostWrite [100] [7]] } : State).inputs = .hostWrite [100] [7] :: [] := rfl
/-- DecodeOfEncodeIsTheInstruction: see also the second halves of the test_wf theorems. -/
theorem witness_encode :
    (Instr.busReadOwned 111 0xFFFF).wf k33 = true ∧ (Instr.uportWrite 3 0x1FFFFFFFF).wf k33 = true ∧
    (Instr.busIdle true 0xFFFF 0xFFFF).wf k33 = true ∧ (Instr.window 2).wf k33 = true := by decide
/-- EveryBusWordIsOneInstruction: the greatest word, and the instruction whose encoding it is. -/
theorem witness_busWord :
    0x3FFFFFFFF < 2 ^ 34 ∧ (Instr.busWriteUnowned 0xFFFF 0xFFFF).wf k33 = true ∧
    encode k33 (.busWriteUnowned 0xFFFF 0xFFFF) = .bus 0x3FFFFFFFF := by decide

/-- Core A and core B of P3, at construction. -/
def chainAB : List State := [State.initial cfgA 0, State.initial cfgB 1]

/-- ChainPassesUnownedWords: RD 9 passes both cores of P3, and an owned read passes no chain of one core. -/
theorem witness_chainPasses :
    chainAB ≠ [] ∧ (List.replicate 7 (BusTxn.idle, ([] : List UserWord))).length + 1 = 4 * chainAB.length ∧
    (∀ c ∈ chainAB, isOwnedRead c.cfg ⟨9, 0x5555, false, true⟩ = false) ∧
    ∃ cs', chainEdges ((⟨9, 0x5555, false, true⟩, []) :: List.replicate 7 (BusTxn.idle, [])) chainAB = .next cs' := by
  refine ⟨by simp [chainAB], by simp [chainAB], ?_, _, rfl⟩
  intro c hc
  simp only [chainAB, List.mem_cons, List.not_mem_nil, or_false] at hc
  rcases hc with rfl | rfl <;> rfl
/-- ChainKeepsTheUpstreamResponse: RD 1 is core A's, and core B does not own it. -/
theorem witness_chainKeeps :
    ∃ c4, clockEdges ([(BusTxn.read 1, []), (BusTxn.idle, []), (BusTxn.idle, []), (BusTxn.idle, [])].map
          (fun p : BusTxn × List UserWord => (p.1, p.2.headD UserWord.nop))) (State.initial cfgA 0) = .next c4 ∧
      isOwnedRead cfgB c4.busO = false ∧ (List.replicate 4 (BusTxn.idle, ([] : List UserWord))).length = 4 * [State.initial cfgB 1].length ∧
      ∃ cs', chainEdges ((BusTxn.read 1, []) :: (BusTxn.idle, []) :: (BusTxn.idle, []) :: (BusTxn.idle, []) ::
          List.replicate 4 (BusTxn.idle, [])) chainAB = .next cs' := by
  refine ⟨_, rfl, ?_, rfl, _, rfl⟩
  rfl
/-- LastOwnerOnTheChainAnswers: bank 1 of core B, its last row. -/
theorem witness_lastOwner : 1 < bankCount (State.initial cfgB 1).cfg ∧ launches cfgB 1 (BusTxn.read 5) = true := by decide
/-- P3, the last edge of RD 1 in core A: with RD 1 in stage 2 and row 1 in the read register, A's `bus_o` is `0x222220001`, and
core B samples what `bus_o` of A held before the edge. -/
theorem test_chainEdge :
    (match chainEdge BusTxn.idle []
        [{ State.initial cfgA 0 with stage2 := BusTxn.read 1, banks := [⟨1, 0x2222, []⟩] }, State.initial cfgB 1] with
      | .next cs => cs.map State.busO
      | _ => []) = [⟨1, 0x2222, false, true⟩, BusTxn.idle] ∧
    (BusTxn.mk 1 0x2222 false true).pack = 0x222220001 ∧
    (match chainEdge BusTxn.idle [] [{ State.initial cfgA 0 with busO := BusTxn.read 3 }, State.initial cfgB 1] with
      | .next cs => cs.map State.stage0
      | _ => []) = [BusTxn.idle, BusTxn.read 3] := ⟨rfl, by decide, rfl⟩
/-- AppearsThreeEdgesLater and the last clause of OwnedReadLaunchesItsRow: three further edges answer. -/
theorem witness_threeEdges :
    (∃ t', clockEdges (List.replicate 3 (BusTxn.read 100, (⟨3, 1, true⟩ : UserWord))) written = .next t') ∧
    ∃ t3, clockEdges (List.replicate 2 (BusTxn.read 100, UserWord.nop)) written = .next t3 ∧
      ∃ t4, clockEdge BusTxn.idle UserWord.nop t3 = .next t4 := ⟨⟨_, rfl⟩, _, rfl, _, rfl⟩

end Sys2Proof.Tests
end

namespace Sys2Proof.Machine

theorem HostOnly.cfg_eq {s t : State} (h : HostOnly s t) : t.cfg = s.cfg := by
  unfold HostOnly at h
  rw [h]

theorem HostOnly.core_eq {s t : State} (h : HostOnly s t) : t.core = s.core := by
  unfold HostOnly at h
  rw [h]

/-- Settles O22: a clock edge, a host call and a platform reset, which are all that a step can be (`step_cases`), each carry
the constants of the core over from the state before. -/
theorem stepKeepsTheConfiguration : Obligations.StepKeepsTheConfiguration := by
  intro s t h
  obtain ⟨-, rfl⟩ | hostOnly | rfl := step_cases h
  · have frame := edgeFrame_edgeState s.busNow s.userNow s
    exact ⟨frame.cfg, frame.core⟩
  · exact ⟨hostOnly.cfg_eq, hostOnly.core_eq⟩
  · simp

end Sys2Proof.Machine

namespace Sys2Proof.Machine

/-! The bank a read is answered from, and the response of one core (41_pipeline.md R102). -/

/-- The windows are disjoint (R85): an address has at most one owning bank. -/
theorem owns_unique {cfg : CoreConfig} {i j a : Nat} (hi : owns cfg i a = true) (hj : owns cfg j a = true) : i = j :=
  ((owns_iff cfg i a).1 hi).2.symm.trans ((owns_iff cfg j a).1 hj).2

/-- The selector picks the owning bank (R88). -/
theorem selectBank_of_owns {cfg : CoreConfig} {i a : Nat} (hi : i < bankCount cfg) (h : owns cfg i a = true) :
    selectBank cfg a = some i := by
  refine List.find?_range_eq_some.2 ⟨h, List.mem_range.2 hi, fun j hj => ?_⟩
  have not_owns : owns cfg j a ≠ true := fun hj' => absurd (owns_unique hj' h) hj.ne
  simpa using not_owns

/-- A launch is a valid read whose address the bank owns (R104). -/
theorem launches_iff {cfg : CoreConfig} {i : Nat} {b : BusTxn} :
    launches cfg i b = true ↔ isRead b = true ∧ owns cfg i b.addr.toNat = true := by
  simp [launches]

/-- Egress of a read the core owns (R102): the owning bank's read data, zero-extended. -/
theorem egress_of_launches {s : State} {i : Nat} (hi : i < bankCount s.cfg) (h : launches s.cfg i s.stage2 = true) :
    egress s = { s.stage2 with data := zext16 (bankWidth s.cfg i) (s.bank i).rdata } := by
  obtain ⟨read, own⟩ := launches_iff.1 h
  simp [egress, read, selectBank_of_owns hi own]

/-- The bits of a zero extension: those of the value below the width, 0 from the width on. -/
theorem zext16_getLsbD (n : Nat) (v : Word) (k : Nat) : (zext16 n v).getLsbD k = (decide (k < n) && v.getLsbD k) := by
  simp only [zext16, BitVec.getLsbD_setWidth]
  by_cases hk : k < 16
  · simp [hk]
  · simp [hk, BitVec.getLsbD_of_ge v k (by omega)]

/-- Settles O17: the response's data is the zero extension of the bank's read data (`egress_of_launches`), read bit by bit. -/
theorem narrowBankResponseIsZeroExtended : Obligations.NarrowBankResponseIsZeroExtended := by
  intro b u s t i hi launch edge
  obtain ⟨-, rfl⟩ := clockEdge_next.1 edge
  have data : (edgeState b u s).busO.data = zext16 (bankWidth s.cfg i) (s.bank i).rdata := by
    rw [edgeState_busO, egress_of_launches hi launch]
  simp only [data, zext16_getLsbD]
  constructor
  · intro k below
    simp [below]
  · intro k fromWidth
    simp [fromWidth.not_gt]

/-! One core's answer to a read, and a chain of two cores (R120, R121), while the side channel writes nothing. -/

/-- Egress replaces at most the data of stage 2 (R102). -/
theorem egress_eq_stage2_withData (s : State) : egress s = { s.stage2 with data := (egress s).data } := by
  rw [BusTxn.mk.injEq]
  exact ⟨egress_addr s, rfl, egress_readWrite s, egress_valid s⟩

section Nop
variable {s : State} {i : Nat} (hi : i < bankCount s.cfg) (b : BusTxn)
include hi

/-- UPORT_NOP writes no row (R113). -/
theorem memRead_edgeState_nop (r : Nat) : (edgeState b UserWord.nop s).memRead i r = s.memRead i r := by
  rw [memRead_edgeState b UserWord.nop s hi, if_neg (by simp [UserWord.nop])]

/-- With UPORT_NOP the read port latches the row that `raddr` names (R105). -/
theorem rdata_edgeState_nop : ((edgeState b UserWord.nop s).bank i).rdata = s.memRead i (s.bank i).raddr := by
  rw [rdata_edgeState b UserWord.nop s hi, if_neg (by simp [UserWord.nop])]

/-- A read owned by bank `i`, with no other read of that bank at the next edge, is answered after four edges with the row it
names (R121): the row is in `raddr[i]` after the first edge and still after the second, so the third latches it. -/
theorem busO_of_ownedRead {b0 b1 : BusTxn} (h0 : launches s.cfg i b0 = true) (h1 : launches s.cfg i b1 = false)
    (b2 b3 : BusTxn) :
    (edgeState b3 .nop (edgeState b2 .nop (edgeState b1 .nop (edgeState b0 .nop s)))).busO =
      { b0 with data := zext16 (bankWidth s.cfg i) (s.memRead i (rowOf s.cfg i b0.addr)) } := by
  have raddr : ((edgeState b1 .nop (edgeState b0 .nop s)).bank i).raddr = rowOf s.cfg i b0.addr := by
    rw [raddr_edgeState b1 .nop (edgeState b0 .nop s) hi, raddr_edgeState b0 .nop s hi]
    simp [h0, h1, rowOf]
  have rdata : ((edgeState b2 .nop (edgeState b1 .nop (edgeState b0 .nop s))).bank i).rdata =
      s.memRead i (rowOf s.cfg i b0.addr) := by
    rw [rdata_edgeState_nop, raddr, memRead_edgeState_nop, memRead_edgeState_nop] <;> exact hi
  rw [edgeState_busO, egress_of_launches hi (s := edgeState b2 .nop (edgeState b1 .nop (edgeState b0 .nop s))) h0, rdata]
  rfl

end Nop

/-- Four edges of a chain of two cores that sample a word and then idle words: the first core has the word on `bus_o`, its
data perhaps replaced, and an idle word behind it; the second core's rows are as they were. -/
theorem chainEdges_word_reaches_second (b : BusTxn) (ws : List (BusTxn × List UserWord)) (c d : State) :
    ∃ c4 d4, chainEdges ((b, []) :: (List.replicate 3 (BusTxn.idle, []) ++ ws)) [c, d] = chainEdges ws [c4, d4] ∧
      (∃ w, c4.busO = { b with data := w }) ∧ c4.stage2 = BusTxn.idle ∧
      d4.cfg = d.cfg ∧ ∀ i r, i < bankCount d.cfg → d4.memRead i r = d.memRead i r := by
  refine ⟨_, _, rfl, ⟨_, egress_eq_stage2_withData _⟩, rfl, rfl, ?_⟩
  intro i r hi
  simp only [List.tail_nil, List.headD_nil]
  iterate 4 rw [memRead_edgeState_nop]
  all_goals exact hi

/-- Settles O57. The first core hands on the read, whatever it answered, with an idle word behind it
(`chainEdges_word_reaches_second`); the second core answers that read with its own row (`busO_of_ownedRead`). -/
theorem lastOwnerOnTheChainAnswers : Obligations.LastOwnerOnTheChainAnswers := by
  intro c d b i hi launch
  obtain ⟨c4, d4, run, ⟨w, read⟩, behind, cfg, rows⟩ :=
    chainEdges_word_reaches_second b (List.replicate 4 (BusTxn.idle, [])) c d
  have bank : i < bankCount d4.cfg := by rw [cfg]; exact hi
  have first : launches d4.cfg i c4.busO = true := by rw [cfg, read]; exact launch
  have second : launches d4.cfg i (egress c4) = false := by
    rw [egress_of_not_read (by rw [behind]; rfl), behind]
    rfl
  refine ⟨_, run, congrArg some ((busO_of_ownedRead bank first second _ _).trans ?_)⟩
  rw [read, cfg, rows i _ hi]

end Sys2Proof.Machine

namespace Sys2Proof.Machine

/-! The two ports of an edge (30_encoding.md R66). -/

/-- Settles O20. The pipeline of both next states is read off the one state before them; `raddr` is a function of the bus word
and that state (`raddr_edgeState`), `rdata` and the rows of the user-port word and that state (`edgeState_bank`). -/
theorem portsActIndependently : Obligations.PortsActIndependently := by
  intro b b' u u' s t t' edge edge'
  obtain ⟨-, rfl⟩ := clockEdge_next.1 edge
  obtain ⟨-, rfl⟩ := clockEdge_next.1 edge'
  refine ⟨rfl, rfl, rfl, ?_, ?_⟩
  · rintro rfl
    refine ⟨rfl, fun i hi => ?_⟩
    rw [raddr_edgeState b u s hi, raddr_edgeState b u' s hi]
  · rintro rfl i hi
    rw [edgeState_bank b u s hi, edgeState_bank b' u s hi]
    exact ⟨rfl, rfl⟩

/-! A run with a disciplined environment (43_host_read.md R146, 70_reset_and_hazards.md section 1). -/

/-- A step at an edge, or past the end of the inputs, whose user-port word is in range. -/
theorem step_of_inRange {s : State} (edge : s.inputs = [] ∨ ∃ b u rest, s.inputs = .edge b u :: rest)
    (inRange : userOutOfRange s.cfg s.userNow = false) : step s = .next (edgeState s.busNow s.userNow s.takeEdge) := by
  rw [← sampleBus_of_inRange inRange]
  obtain none_left | ⟨b, u, rest, at_edge⟩ := edge
  · simp only [step, State.busNow, none_left, exec_decodeBus]
  · simp only [step, State.busNow, at_edge, exec_decodeBus]

/-- A step with a disciplined environment answers a next state and uses up the input at the head of the list. -/
theorem step_of_disciplined {s : State} (disciplined : ∀ x ∈ s.inputs, Input.disciplined s.cfg x) :
    ∃ t, step s = .next t ∧ t.inputs = s.inputs.tail := by
  cases inputs : s.inputs with
  | nil =>
    have inRange : userOutOfRange s.cfg s.userNow = false := by simp [State.userNow, inputs]
    exact ⟨_, step_of_inRange (.inl inputs) inRange, by simp [State.takeEdge, inputs]⟩
  | cons x rest =>
    have head : Input.disciplined s.cfg x := disciplined x (by simp [inputs])
    cases x with
    | edge b u =>
      have inRange : userOutOfRange s.cfg s.userNow = false := by
        simpa only [State.userNow, inputs, Input.disciplined] using head
      exact ⟨_, step_of_inRange (.inr ⟨b, u, rest, inputs⟩) inRange, by simp [State.takeEdge, inputs]⟩
    | reset => exact ⟨platformReset s.takeReset, by simp [step, inputs], by simp [State.takeReset, inputs]⟩
    | call c => exact head.elim
    | hostWrite addrs data => exact head.elim

/-- A run goes on from the state its first step answers. -/
theorem run_succ_of_step {s t : State} (h : step s = .next t) (k : Nat) :
    Host.Core.run core (k + 1) s = Host.Core.run core k t := by
  have first : core.step s = .next t := h
  simp only [Host.Core.run, first]

/-- Settles O24, by induction on the length of the run: a step with a disciplined environment answers a next state
(`step_of_disciplined`), and what is left of the inputs is disciplined for the same configuration. -/
theorem disciplinedRunsNeverStop : Obligations.DisciplinedRunsNeverStop := by
  intro n
  induction n with
  | zero => exact fun s _ => ⟨s, rfl⟩
  | succ k ih =>
    intro s disciplined
    obtain ⟨t, first, inputs⟩ := step_of_disciplined disciplined
    have left : ∀ x ∈ t.inputs, Input.disciplined t.cfg x := by
      rw [inputs, (stepKeepsTheConfiguration s t first).1]
      exact fun x hx => disciplined x (List.mem_of_mem_tail hx)
    rw [run_succ_of_step first]
    exact ih t left

end Sys2Proof.Machine

namespace Sys2Proof

/-! The decoder and the encoder are inverse to each other (30_encoding.md R61, R63, R65, R67, R70). -/

/-- Each word of the bus port decodes to the kind of its transaction. -/
theorem decode_bus (cfg : CoreConfig) {w : Nat} (h : w < 2 ^ 34) :
    decode cfg (.bus w) = .ok (decodeBus cfg (BusTxn.unpack (BitVec.ofNat 34 w))) := if_pos h

/-- The kind of a transaction is well-formed: an owned kind is given only to an address of the window (R63). -/
theorem decodeBus_wf (cfg : CoreConfig) (t : BusTxn) : (decodeBus cfg t).wf cfg = true := by
  unfold decodeBus
  split_ifs with valid write own own
  · exact own
  · simpa [Instr.wf] using own
  · exact own
  · simpa [Instr.wf] using own
  · rfl

/-- The encoding of a transaction's kind is the transaction: the kind fixes `valid` and `read_write` and keeps the rest. -/
theorem encode_decodeBus (cfg : CoreConfig) (t : BusTxn) : encode cfg (decodeBus cfg t) = .bus t.pack.toNat := by
  obtain ⟨addr, data, readWrite, valid⟩ := t
  cases valid with
  | false => rfl
  | true =>
    cases readWrite <;> cases own : Machine.inWindow cfg addr.toNat <;> simp [decodeBus, own, encode]

/-- The decoder reads a well-formed instruction from its encoding. -/
theorem decode_encode {cfg : CoreConfig} {i : Instr} (h : i.wf cfg = true) : decode cfg (encode cfg i) = .ok i := by
  cases i with
  | busIdle rw a d => exact decode_pack cfg _
  | busReadOwned a d =>
    have own : Machine.inWindow cfg a.toNat = true := h
    simp [encode, decode_pack, decodeBus, own]
  | busReadUnowned a d =>
    have unowned : Machine.inWindow cfg a.toNat = false := by simpa [Instr.wf] using h
    simp [encode, decode_pack, decodeBus, unowned]
  | busWriteOwned a d =>
    have own : Machine.inWindow cfg a.toNat = true := h
    simp [encode, decode_pack, decodeBus, own]
  | busWriteUnowned a d =>
    have unowned : Machine.inWindow cfg a.toNat = false := by simpa [Instr.wf] using h
    simp [encode, decode_pack, decodeBus, unowned]
  | uportWrite a d => exact decode_pack_user true h
  | uportNop a d => exact decode_pack_user false h
  | bankWidths w => rfl
  | window i => rfl
  | maxAddr => rfl
  | wordsToValue ws => rfl
  | valueToWords v n => rfl
  | readFromUserAddr x => rfl

/-- Settles O53. The instruction is the kind of the word's transaction, whose encoding is the word again
(`encode_decodeBus`); any other well-formed instruction with that encoding would be what the same word decodes to
(`decode_encode`). -/
theorem everyBusWordIsOneInstruction : Obligations.EveryBusWordIsOneInstruction := by
  intro cfg w hw
  refine ⟨_, decode_bus cfg hw, decodeBus_wf cfg _, ?_, ?_⟩
  · rw [encode_decodeBus, BusTxn.pack_unpack, BitVec.toNat_ofNat, Nat.mod_eq_of_lt hw]
  · intro j wf encoding
    have decoded : decode cfg (.bus w) = .ok j := encoding ▸ decode_encode wf
    exact Except.ok.inj (decoded.symm.trans (decode_bus cfg hw))

end Sys2Proof

namespace Sys2Proof.Machine

/-! The bank partition and the banks' windows (40_address_decoder.md R80 to R85). -/

/-- The three branches of R80 as one form: full banks, then the last bank with what is left. -/
theorem bankWidths_eq_full_append_last {w : Nat} (h : 1 ≤ w) :
    bankWidths w = List.replicate ((w - 1) / 16) 16 ++ [w - 16 * ((w - 1) / 16)] := by
  unfold bankWidths
  split_ifs with small multiple
  · have full : (w - 1) / 16 = 0 := by omega
    simp [full]
  · have full : w / 16 = (w - 1) / 16 + 1 := by omega
    have last : w - 16 * ((w - 1) / 16) = 16 := by omega
    rw [last, full, List.replicate_succ']
  · have full : w / 16 = (w - 1) / 16 := by omega
    have last : w % 16 = w - 16 * ((w - 1) / 16) := by omega
    rw [last, full]

/-- Settles O1, on the form of full banks and a last one (`bankWidths_eq_full_append_last`): the last bank is what the full
ones leave of the width, between 1 and 16 bits. -/
theorem bankWidthsPartitionTheRow : Obligations.BankWidthsPartitionTheRow := by
  intro w hw
  have last_pos : 1 ≤ w - 16 * ((w - 1) / 16) := by omega
  have last_le : w - 16 * ((w - 1) / 16) ≤ 16 := by omega
  rw [bankWidths_eq_full_append_last hw]
  refine ⟨?_, ?_, ?_⟩
  · rw [List.sum_append_nat, List.sum_replicate_nat, List.sum_singleton]
    omega
  · intro x hx
    obtain full | last := List.mem_append.1 hx
    · simp [List.eq_of_mem_replicate full]
    · rw [List.mem_singleton.1 last]
      exact ⟨last_pos, last_le⟩
  · intro i hi
    have full : i < (w - 1) / 16 := by simpa using hi
    simp [List.getElem?_append_left, full]

/-- The windows cover the owning window (R85): the quotient of an address's offset by DEPTH is the bank that owns it. -/
theorem exists_owner_iff_inWindow (cfg : CoreConfig) (a : Nat) :
    (∃ i, i < bankCount cfg ∧ owns cfg i a = true) ↔ inWindow cfg a = true := by
  rw [inWindow_iff]
  constructor
  · rintro ⟨i, hi, own⟩
    obtain ⟨base_le, rfl⟩ := (owns_iff cfg i a).1 own
    exact ⟨base_le, hi⟩
  · rintro ⟨base_le, hi⟩
    exact ⟨_, hi, (owns_iff cfg _ a).2 ⟨base_le, rfl⟩⟩

/-- Settles O4: an address has at most one owner (`owns_unique`), and one exactly in the owning window
(`exists_owner_iff_inWindow`). -/
theorem windowsTileTheOwningWindow : Obligations.WindowsTileTheOwningWindow := by
  refine ⟨?_, ?_, by decide⟩
  · intro cfg i j a _ _ ne own
    have not_owns : owns cfg j a ≠ true := fun own' => ne (owns_unique own own')
    simpa using not_owns
  · intro cfg a
    rw [exists_owner_iff_inWindow, inWindow, Bool.and_eq_true, decide_eq_true_eq, decide_eq_true_eq, maxAddr]

/-- A bank's window ends within the owning window (R85). -/
theorem windowStop_le_maxAddr {cfg : CoreConfig} {i : Nat} (h : i < bankCount cfg) : windowStop cfg i ≤ maxAddr cfg := by
  have rows : (i + 1) * cfg.depth ≤ bankCount cfg * cfg.depth := Nat.mul_le_mul_right _ h
  rw [Nat.succ_mul, Nat.mul_comm (bankCount cfg)] at rows
  unfold windowStop windowStart maxAddr
  omega

/-- WINDOW hands the host the two numbers of `windowOf`. -/
theorem exec_window (i : Nat) (s : State) :
    exec (.window i) s = returnToHost (.window (windowOf s.cfg i).1 (windowOf s.cfg i).2) s := rfl

/-- Settles O37: the call returns the two ends of the bank's window (`windowOf_of_lt`), which lie within the 16-bit owning
window (`windowStop_le_maxAddr`, `maxAddr_le`). -/
theorem windowReturnsTheBankRange : Obligations.WindowReturnsTheBankRange := by
  intro i s hi
  refine ⟨?_, (windowStop_le_maxAddr hi).trans (maxAddr_le s.cfg)⟩
  rw [exec_window, windowOf_of_lt hi]
  rfl

end Sys2Proof.Machine

namespace Sys2Proof.Machine

/-! What every clock edge does to the pipeline, to `bus_o` and to `raddr` (41_pipeline.md R101, R102, R104). -/

/-- A read is a valid transaction that does not write (R102, R104). -/
theorem isRead_iff {b : BusTxn} : isRead b = true ↔ b.valid = true ∧ b.readWrite = false := by
  simp [isRead]

/-- The selector picks exactly a bank of the core that owns the address (R88). -/
theorem selectBank_eq_some_iff {cfg : CoreConfig} {i a : Nat} :
    selectBank cfg a = some i ↔ i < bankCount cfg ∧ owns cfg i a = true := by
  constructor
  · intro selected
    obtain ⟨own, bank, -⟩ := List.find?_range_eq_some.1 selected
    exact ⟨List.mem_range.1 bank, own⟩
  · rintro ⟨hi, own⟩
    exact selectBank_of_owns hi own

/-- Egress of a word that is no valid read owned by a bank (R102): stage 2 as it stands. -/
theorem egress_of_not_launches {s : State} (h : ∀ i, i < bankCount s.cfg → launches s.cfg i s.stage2 = false) :
    egress s = s.stage2 := by
  cases read : isRead s.stage2 with
  | false => exact egress_of_not_read read
  | true =>
    cases selected : selectBank s.cfg s.stage2.addr.toNat with
    | none => simp [egress, read, selected]
    | some i =>
      obtain ⟨hi, own⟩ := selectBank_eq_some_iff.1 selected
      exact absurd (launches_iff.2 ⟨read, own⟩) (by simp [h i hi])

/-- Settles O15: the stages of the edge's next state, read off field by field. -/
theorem edgeShiftsThePipeline : Obligations.EdgeShiftsThePipeline := by
  intro b u s inRange
  exact ⟨_, clockEdge_of_inRange inRange, edgeState_stage0 b u s, edgeState_stage1 b u s, edgeState_stage2 b u s⟩

/-- Settles O16: `bus_o` is loaded with `egress`, which replaces the data exactly where some bank's test holds of stage 2
(`egress_of_launches`, `egress_of_not_launches`). -/
theorem egressReassemblesTheResponse : Obligations.EgressReassemblesTheResponse := by
  intro b u s inRange
  refine ⟨_, clockEdge_of_inRange inRange, egress_valid s, egress_addr s, egress_readWrite s, ?_, ?_⟩
  · intro i hi valid read own
    rw [edgeState_busO, egress_of_launches hi (launches_iff.2 ⟨isRead_iff.2 ⟨valid, read⟩, own⟩)]
  · intro other
    have none_launches : ∀ i, i < bankCount s.cfg → launches s.cfg i s.stage2 = false := by
      intro i hi
      obtain invalid | write | unowned := other
      · simp [launches, isRead, invalid]
      · simp [launches, isRead, write]
      · simp [launches, unowned i hi]
    rw [edgeState_busO, egress_of_not_launches none_launches]

/-- Settles O18: the statement's test is the launch test of R104, and the row of an owned address is below DEPTH
(`owns_row_lt`). -/
theorem launchLatchesTheRow : Obligations.LaunchLatchesTheRow := by
  intro b u s inRange
  refine ⟨_, clockEdge_of_inRange inRange, fun i hi => ?_⟩
  simp only [raddr_edgeState b u s hi, launches_iff, isRead_iff, and_assoc]
  split_ifs with launch
  · obtain ⟨-, -, own⟩ := launch
    exact ⟨rfl, owns_row_lt own⟩
  · rfl

/-! What writes storage, and what does not (41_pipeline.md R113, R114; 60_exceptions.md R170). -/

/-- A host call keeps every row. -/
theorem HostOnly.memRead_eq {s t : State} (h : HostOnly s t) (i r : Nat) : t.memRead i r = s.memRead i r := by
  unfold HostOnly at h
  rw [h]
  rfl

/-- A platform reset keeps every row (R182). -/
theorem memRead_platformReset {s : State} {i : Nat} (hi : i < bankCount s.cfg) (r : Nat) :
    (platformReset s).memRead i r = s.memRead i r := by
  simp only [State.memRead, platformReset_bank s hi, platformReset_cfg, platformReset_core]

/-- A user-port word that writes comes from an edge at the head of the inputs: the side channel presents `-` otherwise. -/
theorem inputs_of_userNow_writes {s : State} (writes : s.userNow.we = true) :
    ∃ b rest, s.inputs = .edge b s.userNow :: rest := by
  unfold State.userNow at writes ⊢
  split at writes
  next b u rest inputs => exact ⟨b, rest, by simp only [inputs]⟩
  next => cases writes

/-- Settles O23. Of the three things a step can be (`step_cases`), a host call and a platform reset keep every row, and a
clock edge changes only the row that its user-port word writes (`EdgeFrame.rows`). -/
theorem onlyTheSideChannelWritesStorage : Obligations.OnlyTheSideChannelWritesStorage := by
  intro s t i r stepped hi changed
  obtain ⟨-, rfl⟩ | hostOnly | rfl := step_cases stepped
  · have keeps := (edgeFrame_edgeState s.busNow s.userNow s).rows i r hi
    have writes : s.userNow.we = true := by
      by_contra no_write
      exact changed (keeps (.inl (by simpa using no_write)))
    have row : s.userNow.addr = r := by
      by_contra other
      exact changed (keeps (.inr (Ne.symm other)))
    obtain ⟨b, rest, inputs⟩ := inputs_of_userNow_writes writes
    exact ⟨b, s.userNow, rest, inputs, writes, row⟩
  · exact absurd (hostOnly.memRead_eq i r) changed
  · have keeps : (platformReset s.takeReset).memRead i r = s.takeReset.memRead i r :=
      memRead_platformReset (by simpa using hi) r
    exact absurd (keeps.trans (takeReset_memRead s i r)) changed

/-- UPORT_NOP runs the edge that samples its word, whatever that word's address and data. -/
theorem exec_uportNop (a v : Nat) (s : State) :
    exec (.uportNop a v) s = .next (edgeState s.busNow { addr := a, data := v, we := false } s.takeEdge) :=
  (exec_decodeUser { addr := a, data := v, we := false } s).trans (sampleUser_of_inRange rfl)

/-- Settles O35. With `user_we` 0 the guard of R111 cannot stop the edge, every row is in its frame, and no read port
collides with a write (`latches_edgeState`). -/
theorem userNopLeavesAllStorage : Obligations.UserNopLeavesAllStorage := by
  intro a v s
  have frame := edgeFrame_edgeState s.busNow { addr := a, data := v, we := false } s
  refine ⟨_, exec_uportNop a v s, frame, fun i hi => ⟨fun r => frame.rows i r hi (.inl rfl), ?_, ?_⟩⟩
  · simpa using latches_edgeState s.busNow { addr := a, data := v, we := false } s i hi
  · rw [raddr_edgeState _ _ _ (by simpa using hi)]
    simp [rowOf]

end Sys2Proof.Machine

namespace Sys2Proof.Machine

/-! The word codec as numbers (42_word_codec.md R130 to R135). -/

theorem wordOk_iff {w : Int} : wordOk w = true ↔ IsCodecWord w := by
  simp [wordOk, IsCodecWord]

/-- Words of the union are accepted (R131): `words_to_value` is the number of their patterns. -/
theorem wordsToValue_of_codecWords {ws : List Int} (h : ∀ w ∈ ws, IsCodecWord w) :
    wordsToValue ws = some (concatWords (ws.map unsignedWord)) :=
  if_pos (List.all_eq_true.2 fun w hw => wordOk_iff.2 (h w hw))

/-- One word outside the union refuses the sequence (R131). -/
theorem wordsToValue_of_bad {ws : List Int} (h : ∃ w ∈ ws, ¬ IsCodecWord w) : wordsToValue ws = none := by
  obtain ⟨w, hw, bad⟩ := h
  exact if_neg fun ok => bad (wordOk_iff.1 (List.all_eq_true.1 ok w hw))

/-- The pattern of an accepted word: the word itself, or the word plus 65536 (R130, D13). -/
theorem unsignedWord_cast {w : Int} (h : IsCodecWord w) : (unsignedWord w : Int) = if w < 0 then w + 65536 else w := by
  obtain ⟨low, high⟩ := h
  unfold unsignedWord
  split_ifs <;> omega

theorem unsignedWord_lt {w : Int} (h : IsCodecWord w) : unsignedWord w < 2 ^ 16 := by
  have pattern := unsignedWord_cast h
  obtain ⟨low, high⟩ := h
  split_ifs at pattern <;> omega

/-- The words handed to the concatenation are 16-bit patterns. -/
theorem map_unsignedWord_lt {ws : List Int} (h : ∀ w ∈ ws, IsCodecWord w) : ∀ u ∈ ws.map unsignedWord, u < 2 ^ 16 :=
  List.forall_mem_map.2 fun w hw => unsignedWord_lt (h w hw)

@[simp] theorem unsignedWord_natCast (u : Nat) : unsignedWord u = u := by
  rw [unsignedWord, if_neg (Int.natCast_nonneg u).not_gt, Int.toNat_natCast]

theorem isCodecWord_natCast {u : Nat} (h : u < 2 ^ 16) : IsCodecWord u := by
  constructor <;> omega

/-- 16-bit words, none of them negative, are their own patterns. -/
theorem wordsToValue_natCast {us : List Nat} (h : ∀ u ∈ us, u < 2 ^ 16) :
    wordsToValue (us.map (fun u : Nat => (u : Int))) = some (concatWords us) := by
  have accepted : ∀ w ∈ us.map (fun u : Nat => (u : Int)), IsCodecWord w :=
    List.forall_mem_map.2 fun u hu => isCodecWord_natCast (h u hu)
  have patterns : (us.map (fun u : Nat => (u : Int))).map unsignedWord = us := by
    simp [Function.comp_def]
  rw [wordsToValue_of_codecWords accepted, patterns]

/-- The concatenation of R130 is positional notation to the base `2^16`, `words[0]` least significant. -/
theorem concatWords_eq_ofDigits (us : List Nat) : concatWords us = Nat.ofDigits (2 ^ 16) us := by
  induction us with
  | nil => rfl
  | cons u us ih => rw [concatWords, ih, Nat.ofDigits_cons]

theorem concatWords_lt {us : List Nat} (h : ∀ u ∈ us, u < 2 ^ 16) : concatWords us < 2 ^ (16 * us.length) := by
  rw [concatWords_eq_ofDigits, pow_mul]
  exact Nat.ofDigits_lt_base_pow_length (by decide) h

/-- One more word at the most significant end. -/
theorem concatWords_append_singleton (us : List Nat) (u : Nat) :
    concatWords (us ++ [u]) = concatWords us + 2 ^ (16 * us.length) * u := by
  rw [concatWords_eq_ofDigits, Nat.ofDigits_append, Nat.ofDigits_singleton, ← concatWords_eq_ofDigits, pow_mul]

theorem concatWords_map_range_succ (f : Nat → Nat) (n : Nat) :
    concatWords ((List.range (n + 1)).map f) = concatWords ((List.range n).map f) + 2 ^ (16 * n) * f n := by
  rw [List.range_succ, List.map_append, List.map_singleton, concatWords_append_singleton, List.length_map,
    List.length_range]

/-- The sum of R130, word by word. -/
theorem concatWords_map_range (f : Nat → Nat) (n : Nat) :
    concatWords ((List.range n).map f) = ((List.range n).map (fun j => f j * 2 ^ (16 * j))).sum := by
  induction n with
  | zero => rfl
  | succ n ih =>
    rw [concatWords_map_range_succ, ih, List.range_succ, List.map_append, List.sum_append, List.map_singleton,
      List.sum_singleton, Nat.mul_comm (f n)]

/-- R130's sum for accepted words, negative ones included (D13). -/
theorem concatWords_map_unsignedWord {ws : List Int} (h : ∀ w ∈ ws, IsCodecWord w) :
    (concatWords (ws.map unsignedWord) : Int) = ((List.range ws.length).map (fun j =>
      (if ws.getD j 0 < 0 then ws.getD j 0 + 65536 else ws.getD j 0) * 2 ^ (16 * j))).sum := by
  have patterns : ws.map unsignedWord = (List.range ws.length).map (fun j => unsignedWord (ws.getD j 0)) := by
    refine List.ext_getElem (by simp) fun j hj _ => ?_
    have inList : j < ws.length := by simpa using hj
    simp [inList]
  rw [patterns, concatWords_map_range, Nat.cast_list_sum, List.map_map]
  refine congrArg List.sum (List.map_congr_left fun j hj => ?_)
  have word : IsCodecWord (ws.getD j 0) := by
    rw [List.getD_eq_getElem _ _ (List.mem_range.1 hj)]
    exact h _ (List.getElem_mem _)
  rw [Function.comp_apply, Nat.cast_mul, unsignedWord_cast word, Nat.cast_pow, Nat.cast_ofNat]

/-- WORDS_TO_VALUE hands the host the answer of `words_to_value`. -/
theorem exec_wordsToValue (ws : List Int) (s : State) :
    exec (.wordsToValue ws) s = returnToHost (returnedValue (wordsToValue ws)) s := rfl

/-- Settles O39: accepted words give the number of their patterns, which is R130's sum (`concatWords_map_unsignedWord`) and
fits `16 * n` bits (`concatWords_lt`); a word outside the union gives RangeError. -/
theorem wordsToValueSumsTheWords : Obligations.WordsToValueSumsTheWords := by
  intro ws s
  rw [exec_wordsToValue]
  constructor
  · intro accepted
    rw [wordsToValue_of_codecWords accepted]
    exact ⟨_, rfl, concatWords_map_unsignedWord accepted, by simpa using concatWords_lt (map_unsignedWord_lt accepted)⟩
  · intro bad
    rw [wordsToValue_of_bad bad]
    rfl

/-- The `n` low 16-bit words of `v`, least significant first (R132, R135). -/
def lowWords (v n : Nat) : List Nat := (List.range n).map (fun j => slice v (16 * j) 16)

/-- A value that fits `16 * n` bits is split into its low words (R132). -/
theorem valueToWords_of_lt {v n : Nat} (h : v < 2 ^ (16 * n)) : valueToWords v n = some (lowWords v n) := by
  have fits : ¬ (2 : Int) ^ (16 * n) ≤ v := by
    rw [not_le]
    exact_mod_cast h
  rw [valueToWords, if_neg (Int.natCast_nonneg v).not_gt, if_neg fits, Int.toNat_natCast, lowWords]

theorem lowWords_lt {v n : Nat} : ∀ u ∈ lowWords v n, u < 2 ^ 16 :=
  List.forall_mem_map.2 fun _ _ => slice_lt _ _ _

theorem lowWords_getElem? {v n i : Nat} (h : i < n) : (lowWords v n)[i]? = some (v / 2 ^ (16 * i) % 2 ^ 16) := by
  simp [lowWords, slice, h]

/-- Splitting a number peels off its least significant word. -/
theorem lowWords_succ {u : Nat} (h : u < 2 ^ 16) (v n : Nat) :
    lowWords (u + 2 ^ 16 * v) (n + 1) = u :: lowWords v n := by
  have rest (j : Nat) : slice (u + 2 ^ 16 * v) (16 * (j + 1)) 16 = slice v (16 * j) 16 := by
    rw [slice, slice, Nat.mul_succ, Nat.add_comm (16 * j), pow_add, ← Nat.div_div_eq_div_mul,
      Nat.add_mul_div_left _ _ (Nat.two_pow_pos 16), Nat.div_eq_of_lt h, Nat.zero_add]
  have first : slice (u + 2 ^ 16 * v) (16 * 0) 16 = u := by
    rw [slice, Nat.mul_zero, pow_zero, Nat.div_one, Nat.add_mul_mod_self_left, Nat.mod_eq_of_lt h]
  simp only [lowWords, List.range_succ_eq_map, List.map_cons, List.map_map, first, Function.comp_def, rest]

/-- Splitting undoes concatenation. -/
theorem lowWords_concatWords {us : List Nat} (h : ∀ u ∈ us, u < 2 ^ 16) :
    lowWords (concatWords us) us.length = us := by
  induction us with
  | nil => rfl
  | cons u us ih =>
    obtain ⟨head, tail⟩ := List.forall_mem_cons.1 h
    rw [concatWords, List.length_cons, lowWords_succ head, ih tail]

/-- Concatenation undoes splitting, up to the bits that were split off. -/
theorem concatWords_lowWords (v n : Nat) : concatWords (lowWords v n) = v % 2 ^ (16 * n) := by
  induction n with
  | zero => simp [lowWords, concatWords, Nat.mod_one]
  | succ n ih =>
    rw [lowWords] at ih ⊢
    rw [concatWords_map_range_succ, ih, slice, Nat.mul_succ, pow_add, Nat.mod_mul]

/-- Settles O42: `lowWords` and `concatWords` undo each other, and the words they pass are 16-bit patterns. -/
theorem codecRoundTrips : Obligations.CodecRoundTrips := by
  constructor
  · intro n v fits
    refine ⟨lowWords v n, valueToWords_of_lt fits, ?_⟩
    rw [wordsToValue_natCast lowWords_lt, concatWords_lowWords, Nat.mod_eq_of_lt fits]
  · intro ws accepted
    have bounded := map_unsignedWord_lt accepted
    refine ⟨concatWords (ws.map unsignedWord), wordsToValue_of_codecWords accepted, ?_⟩
    rw [← List.length_map (as := ws) unsignedWord, valueToWords_of_lt (concatWords_lt bounded),
      lowWords_concatWords bounded]
    rfl

/-- A bank is 16 bits wide, or has what the banks before it leave of the row (R80). -/
theorem bankWidth_eq_min {cfg : CoreConfig} {i : Nat} (h : i < bankCount cfg) :
    bankWidth cfg i = min 16 (cfg.width - 16 * i) := by
  rw [bankCount_eq] at h
  have positive := cfg.width_pos
  rw [bankWidth, bankWidths_eq_full_append_last positive]
  by_cases full : i < (cfg.width - 1) / 16
  · rw [List.getD_append _ _ _ _ (by simpa using full), List.getD_replicate _ full]
    omega
  · have last : i = (cfg.width - 1) / 16 := by omega
    rw [last, List.getD_append_right _ _ _ _ (by simp), List.length_replicate, Nat.sub_self, List.getD_cons_zero]
    omega

theorem bankWidth_le {cfg : CoreConfig} {i : Nat} (h : i < bankCount cfg) : bankWidth cfg i ≤ 16 :=
  (bankWidth_eq_min h).trans_le (min_le_left _ _)

/-- The banks cover the row (R81). -/
theorem width_le_bankBits (cfg : CoreConfig) : cfg.width ≤ 16 * bankCount cfg := by
  rw [bankCount_eq]
  omega

/-- Of a value that fits the row, bank `i` holds the whole 16-bit word `i`. -/
theorem rowWord_mod_bankWidth {cfg : CoreConfig} {v i : Nat} (hv : v < 2 ^ cfg.width) (hi : i < bankCount cfg) :
    v / 2 ^ (16 * i) % 2 ^ bankWidth cfg i = v / 2 ^ (16 * i) % 2 ^ 16 := by
  rw [bankWidth_eq_min hi]
  obtain full | narrow := Nat.le_total 16 (cfg.width - 16 * i)
  · rw [min_eq_left full]
  · have word_lt : v / 2 ^ (16 * i) < 2 ^ (cfg.width - 16 * i) := by
      refine Nat.div_lt_of_lt_mul (hv.trans_le ?_)
      rw [← pow_add]
      exact Nat.pow_le_pow_right (by decide) (by omega)
    rw [min_eq_right narrow, Nat.mod_eq_of_lt word_lt,
      Nat.mod_eq_of_lt (word_lt.trans_le (Nat.pow_le_pow_right (by decide) narrow))]

/-- Contents that fit their banks make up a number that fits the row: all banks but the last are full. -/
theorem concatWords_banks_lt {cfg : CoreConfig} {f : Nat → Nat}
    (h : ∀ i, i < bankCount cfg → f i < 2 ^ bankWidth cfg i) :
    concatWords ((List.range (bankCount cfg)).map f) < 2 ^ cfg.width := by
  obtain ⟨k, count⟩ : ∃ k, bankCount cfg = k + 1 := Nat.exists_eq_succ_of_ne_zero (Nat.ne_of_gt (bankCount_pos cfg))
  have full_lt : concatWords ((List.range k).map f) < 2 ^ (16 * k) := by
    have bounded : ∀ u ∈ (List.range k).map f, u < 2 ^ 16 := by
      refine List.forall_mem_map.2 fun i hi => ?_
      have bank : i < bankCount cfg := by
        have := List.mem_range.1 hi
        omega
      exact (h i bank).trans_le (Nat.pow_le_pow_right (by decide) (bankWidth_le bank))
    simpa using concatWords_lt bounded
  have last : k < bankCount cfg := by omega
  have bits : 16 * k + bankWidth cfg k = cfg.width := by
    rw [bankWidth_eq_min last]
    rw [bankCount_eq] at count
    omega
  rw [count, concatWords_map_range_succ]
  calc concatWords ((List.range k).map f) + 2 ^ (16 * k) * f k
      < 2 ^ (16 * k) * (f k + 1) := by rw [Nat.mul_succ]; omega
    _ ≤ 2 ^ (16 * k) * 2 ^ bankWidth cfg k := Nat.mul_le_mul_left _ (h k last)
    _ = 2 ^ cfg.width := by rw [← pow_add, bits]

/-- Settles O43: word `i` of the row value is bank `i`'s slice (`rowWord_mod_bankWidth`), and what the banks hold is put
together to the row's sum (`concatWords_map_range`), which fits the row (`concatWords_banks_lt`). -/
theorem codecAgreesWithTheBankLayout : Obligations.CodecAgreesWithTheBankLayout := by
  constructor
  · intro cfg v hv
    have fits : v < 2 ^ (16 * bankCount cfg) := hv.trans_le (Nat.pow_le_pow_right (by decide) (width_le_bankBits cfg))
    refine ⟨lowWords v (bankCount cfg), valueToWords_of_lt fits, fun i hi => ?_⟩
    rw [lowWords_getElem? hi, rowWord_mod_bankWidth hv hi]
  · intro cfg m hm
    have words : (List.range (bankCount cfg)).map (fun i => ((zext16 (bankWidth cfg i) (m i)).toNat : Int)) =
        ((List.range (bankCount cfg)).map (fun i => (m i).toNat)).map (fun u : Nat => (u : Int)) := by
      rw [List.map_map]
      refine List.map_congr_left fun i hi => ?_
      rw [zext16_of_lt (hm i (List.mem_range.1 hi)), Function.comp_apply]
    refine ⟨concatWords ((List.range (bankCount cfg)).map (fun i => (m i).toNat)), ?_, concatWords_map_range _ _,
      concatWords_banks_lt hm⟩
    rw [words, wordsToValue_natCast (List.forall_mem_map.2 fun i _ => (m i).isLt)]

end Sys2Proof.Machine

namespace Sys2Proof.Machine

/-! The physical addresses of a host read (43_host_read.md R140, R141, R143). -/

@[simp] theorem physicalAddrs_length (cfg : CoreConfig) (a : Nat) : (physicalAddrs cfg a).length = bankCount cfg := by
  simp [physicalAddrs]

theorem physicalAddrs_getElem? {cfg : CoreConfig} {i : Nat} (hi : i < bankCount cfg) (a : Nat) :
    (physicalAddrs cfg a)[i]? = some (a + cfg.base + i * cfg.depth) := by
  simp [physicalAddrs, hi]

theorem requestAddrs_cons (cfg : CoreConfig) (a : Int) (l : List Int) :
    requestAddrs cfg (a :: l) = physicalAddrs cfg a.toNat ++ requestAddrs cfg l := List.flatMap_cons

theorem requestAddrs_length (cfg : CoreConfig) (l : List Int) : (requestAddrs cfg l).length = l.length * bankCount cfg := by
  simp [requestAddrs, List.length_flatMap]

/-- Entry `j * BANK_COUNT + i` of a request is in the group of address `j`, since each group has BANK_COUNT entries. -/
theorem requestAddrs_getElem? {cfg : CoreConfig} {l : List Int} {j i : Nat} (hj : j < l.length) (hi : i < bankCount cfg) :
    (requestAddrs cfg l)[j * bankCount cfg + i]? = some ((l.getD j 0).toNat + cfg.base + i * cfg.depth) := by
  induction l generalizing j with
  | nil => cases hj
  | cons a l ih =>
    rw [requestAddrs_cons]
    cases j with
    | zero =>
      rw [Nat.zero_mul, Nat.zero_add, List.getElem?_append_left (by simpa using hi), physicalAddrs_getElem? hi,
        List.getD_cons_zero]
    | succ j =>
      have later : (j + 1) * bankCount cfg + i = bankCount cfg + (j * bankCount cfg + i) := by
        rw [Nat.succ_mul]
        omega
      rw [later, List.getElem?_append_right (by simp), physicalAddrs_length, Nat.add_sub_cancel_left,
        ih (Nat.lt_of_succ_lt_succ hj), List.getD_cons_succ]

/-- Settles O45: a request is one group of BANK_COUNT addresses per logical address, counted (`requestAddrs_length`) and
indexed (`requestAddrs_getElem?`) along the list of logical addresses. -/
theorem hostReadGroupsByAddress : Obligations.HostReadGroupsByAddress :=
  fun cfg l => ⟨requestAddrs_length cfg l, fun _ _ hj hi => requestAddrs_getElem? hj hi⟩

/-- Every address of a request is one logical address's, in one bank (R140). -/
theorem mem_requestAddrs {cfg : CoreConfig} {l : List Int} {p : Nat} :
    p ∈ requestAddrs cfg l ↔ ∃ a ∈ l, ∃ i < bankCount cfg, a.toNat + cfg.base + i * cfg.depth = p := by
  simp [requestAddrs, physicalAddrs]

/-- A physical address is its row's offset above START of its bank (R90). -/
theorem physicalAddr_eq (cfg : CoreConfig) (a i : Nat) : a + cfg.base + i * cfg.depth = windowStart cfg i + a := by
  unfold windowStart
  omega

/-- Bank `i` owns exactly the DEPTH addresses from START(i) on (R83, R84). -/
theorem owns_windowStart_add_iff (cfg : CoreConfig) (i a : Nat) : owns cfg i (windowStart cfg i + a) = true ↔ a < cfg.depth := by
  have positive := cfg.depth_pos
  simp only [owns, Bool.and_eq_true, decide_eq_true_eq]
  unfold windowStop
  omega

/-- The physical addresses of a row of the core lie in the owning window (R143). -/
theorem windowStart_add_le_maxAddr {cfg : CoreConfig} {i a : Nat} (hi : i < bankCount cfg) (ha : a < cfg.depth) :
    windowStart cfg i + a ≤ maxAddr cfg := by
  refine Nat.le_trans ?_ (windowStop_le_maxAddr hi)
  unfold windowStop
  omega

/-- Settles O46: a physical address is its logical address counted from START of its bank (`physicalAddr_eq`), where the bank
owns DEPTH addresses (`owns_windowStart_add_iff`), all of them in the 16-bit owning window. -/
theorem hostReadAddressesAreOwned : Obligations.HostReadAddressesAreOwned := by
  constructor
  · intro cfg l p logical member
    obtain ⟨a, ha, i, hi, rfl⟩ := mem_requestAddrs.1 member
    have row : a.toNat < cfg.depth := by
      obtain ⟨nonneg, below⟩ := logical a ha
      omega
    have inside : a.toNat + cfg.base + i * cfg.depth ≤ maxAddr cfg := by
      rw [physicalAddr_eq]
      exact windowStart_add_le_maxAddr hi row
    exact ⟨inside.trans (maxAddr_le cfg), by omega, inside⟩
  · intro cfg a i hi
    rw [physicalAddr_eq]
    refine ⟨owns_windowStart_add_iff cfg i a, fun ha => ⟨?_, Nat.add_sub_cancel_left ..⟩⟩
    exact selectBank_of_owns hi ((owns_windowStart_add_iff cfg i a).2 ha)

end Sys2Proof.Machine

namespace Sys2Proof.Machine

/-! A transport of isolated bus reads (43_host_read.md R145). -/

section IsolatedRead
variable {s : State} {i r : Nat}

/-- The core after one isolated bus read of physical address `p`: the read's edge and three idle edges after it. -/
def State.afterRead (s : State) (p : Nat) : State :=
  edgeState .idle .nop (edgeState .idle .nop (edgeState .idle .nop (edgeState (.read (BitVec.ofNat 16 p)) .nop s)))

theorem clockEdges_isolatedRead (p : Nat) (s : State) :
    clockEdges [(.read (BitVec.ofNat 16 p), .nop), (.idle, .nop), (.idle, .nop), (.idle, .nop)] s =
      .next (s.afterRead p) := rfl

@[simp] theorem afterRead_cfg (p : Nat) : (s.afterRead p).cfg = s.cfg := rfl

theorem memRead_afterRead (hi : i < bankCount s.cfg) (p q : Nat) : (s.afterRead p).memRead i q = s.memRead i q := by
  unfold State.afterRead
  iterate 4 rw [memRead_edgeState_nop]
  all_goals exact hi

/-- An address of the owning window is carried whole by the 16-bit bus. -/
theorem ofNat_windowStart_add_toNat {cfg : CoreConfig} (hi : i < bankCount cfg) (hr : r < cfg.depth) :
    (BitVec.ofNat 16 (windowStart cfg i + r)).toNat = windowStart cfg i + r := by
  have fits := (windowStart_add_le_maxAddr hi hr).trans (maxAddr_le cfg)
  rw [BitVec.toNat_ofNat, Nat.mod_eq_of_lt (by omega)]

/-- An isolated read of row `r` of bank `i` is answered with that row (R121): no other read follows it. -/
theorem busO_afterRead (hi : i < bankCount s.cfg) (hr : r < s.cfg.depth) :
    (s.afterRead (windowStart s.cfg i + r)).busO.data = zext16 (bankWidth s.cfg i) (s.memRead i r) := by
  have address := ofNat_windowStart_add_toNat hi hr
  have launch : launches s.cfg i (.read (BitVec.ofNat 16 (windowStart s.cfg i + r))) = true := by
    refine launches_iff.2 ⟨rfl, ?_⟩
    simpa only [BusTxn.read, address] using (owns_windowStart_add_iff s.cfg i r).2 hr
  have row : rowOf s.cfg i (BitVec.ofNat 16 (windowStart s.cfg i + r)) = r := by
    rw [rowOf, address, Nat.add_sub_cancel_left]
  rw [State.afterRead, busO_of_ownedRead hi launch rfl]
  simp only [BusTxn.read, row]

end IsolatedRead

/-- A transport of isolated reads, taken apart at the first one. -/
theorem isolatedReads_cons {p : Nat} {ps : List Nat} {s t : State} {ws : List Int}
    (h : isolatedReads ps (s.afterRead p) = some (ws, t)) :
    isolatedReads (p :: ps) s = some (((s.afterRead p).busO.data.toNat : Int) :: ws, t) := by
  simp only [isolatedReads, clockEdges_isolatedRead, h]

/-- The word of bank `i` for row `r` as a host reads it. -/
def State.rowWord (s : State) (r i : Nat) : Int := (zext16 (bankWidth s.cfg i) (s.memRead i r)).toNat

/-- Isolated reads of row `r` in some banks, in any order, return that row of each, and keep every row. -/
theorem isolatedReads_banks {r : Nat} {banks : List Nat} {s : State} (hbanks : ∀ i ∈ banks, i < bankCount s.cfg)
    (hr : r < s.cfg.depth) :
    ∃ t, isolatedReads (banks.map (fun i => windowStart s.cfg i + r)) s = some (banks.map (s.rowWord r), t) ∧
      ∀ i q, i < bankCount s.cfg → t.memRead i q = s.memRead i q := by
  induction banks generalizing s with
  | nil => exact ⟨s, rfl, fun _ _ _ => rfl⟩
  | cons i banks ih =>
    obtain ⟨hi, others⟩ := List.forall_mem_cons.1 hbanks
    obtain ⟨t, run, keeps⟩ := ih (s := s.afterRead (windowStart s.cfg i + r)) others hr
    rw [afterRead_cfg] at run
    have words : banks.map ((s.afterRead (windowStart s.cfg i + r)).rowWord r) = banks.map (s.rowWord r) := by
      refine List.map_congr_left fun j hj => ?_
      rw [State.rowWord, memRead_afterRead (others j hj), afterRead_cfg, State.rowWord]
    refine ⟨t, ?_, fun j q hj => (keeps j q hj).trans (memRead_afterRead hj _ _)⟩
    rw [List.map_cons, isolatedReads_cons run, words, busO_afterRead hi hr]
    rfl

/-- A transport of isolated reads of a logical row whose contents fit their banks returns words that assemble to the row
(R134, R145), and keeps every row. -/
theorem isolatedReads_physicalAddrs {s : State} {r : Nat} (hr : r < s.cfg.depth)
    (fits : ∀ i, i < bankCount s.cfg → (s.memRead i r).toNat < 2 ^ bankWidth s.cfg i) :
    ∃ ws t, isolatedReads (physicalAddrs s.cfg r) s = some (ws, t) ∧ wordsToValue ws = some (logicalRow s r) ∧
      ∀ i q, i < bankCount s.cfg → t.memRead i q = s.memRead i q := by
  obtain ⟨t, run, keeps⟩ := isolatedReads_banks (banks := List.range (bankCount s.cfg)) (fun _ => List.mem_range.1) hr
  obtain ⟨v, assembled, rfl, -⟩ := codecAgreesWithTheBankLayout.2 s.cfg (s.memRead · r) fits
  refine ⟨_, t, ?_, assembled, keeps⟩
  simp only [physicalAddrs, physicalAddr_eq]
  exact run

/-- A row of a well-kept bank fits the bank (R27), written or not. -/
theorem memRead_toNat_lt {s : State} {i : Nat} (h : Bank.Ok s.cfg i (s.bank i)) (r : Nat) :
    (s.memRead i r).toNat < 2 ^ bankWidth s.cfg i := by
  unfold State.memRead
  cases listed : (s.bank i).rows.lookup r with
  | none => exact initRow_toNat_lt _ _ _ _
  | some v => exact h.value_lt _ (Memory.mem_of_lookup listed)

/-- Settles O50: the invariant says that every row fits its bank (`memRead_toNat_lt`), which is what the transport of isolated
reads asks of the state (`isolatedReads_physicalAddrs`). -/
theorem isolatedTransportReadsTheLogicalRow : Obligations.IsolatedTransportReadsTheLogicalRow :=
  fun _ r inv hr => isolatedReads_physicalAddrs hr fun i hi => memRead_toNat_lt (inv.bank_ok i hi) r

/-- The slice that bank `i` is given of a value that fits the row is the value's whole word `i` (R110, R134). -/
theorem userSlice_toNat {cfg : CoreConfig} {i v : Nat} (hi : i < bankCount cfg) (hv : v < 2 ^ cfg.width) :
    (userSlice cfg i v).toNat = slice v (16 * i) 16 := by
  rw [userSlice, slice, rowWord_mod_bankWidth hv hi, BitVec.toNat_ofNat, Nat.mod_mod, slice]

/-- A logical row that holds the slices of a value that fits the row is that value. -/
theorem logicalRow_of_userSlices {s : State} {r v : Nat} (hv : v < 2 ^ s.cfg.width)
    (slices : ∀ i, i < bankCount s.cfg → s.memRead i r = userSlice s.cfg i v) : logicalRow s r = v := by
  have words : (List.range (bankCount s.cfg)).map (fun i => (s.memRead i r).toNat) = lowWords v (bankCount s.cfg) := by
    refine List.map_congr_left fun i hi => ?_
    have bank := List.mem_range.1 hi
    rw [slices i bank, userSlice_toNat bank hv]
  have fits : v < 2 ^ (16 * bankCount s.cfg) := hv.trans_le (Nat.pow_le_pow_right (by decide) (width_le_bankBits s.cfg))
  rw [logicalRow, ← concatWords_map_range, words, concatWords_lowWords, Nat.mod_eq_of_lt fits]

/-- Settles O51: the edge of the write leaves its slice of `v` in row `r` of every bank (`memRead_edgeState`), so the logical
row is `v` (`logicalRow_of_userSlices`), and every slice fits its bank, so isolated reads return it. -/
theorem writtenRowReadsBack : Obligations.WrittenRowReadsBack := by
  intro s b r v hr hv
  have inRange : userOutOfRange s.cfg { addr := r, data := v, we := true } = false := by simp [userOutOfRange, hr]
  have slices : ∀ i, i < bankCount s.cfg →
      (edgeState b { addr := r, data := v, we := true } s).memRead i r = userSlice s.cfg i v := by
    intro i hi
    rw [memRead_edgeState b _ s hi, if_pos ⟨rfl, rfl⟩]
  have fits : ∀ i, i < bankCount s.cfg →
      ((edgeState b { addr := r, data := v, we := true } s).memRead i r).toNat < 2 ^ bankWidth s.cfg i := by
    intro i hi
    rw [slices i hi]
    exact userSlice_toNat_lt _ _ _
  have row : logicalRow (edgeState b { addr := r, data := v, we := true } s) r = v := logicalRow_of_userSlices hv slices
  obtain ⟨ws, t, run, assembled, -⟩ :=
    isolatedReads_physicalAddrs (s := edgeState b { addr := r, data := v, we := true } s) hr fits
  exact ⟨_, ws, t, clockEdge_of_inRange inRange, row, run, assembled.trans (congrArg some row)⟩

end Sys2Proof.Machine

namespace Sys2Proof.Machine

/-! MAX_ADDR, and the host's write (43_host_read.md R142, R144). -/

/-- MAX_ADDR hands the host the last address of the owning window, as a bus word. -/
theorem exec_maxAddr (s : State) : exec .maxAddr s = returnToHost (.address (BitVec.ofNat 16 (maxAddr s.cfg))) s := rfl

/-- Settles O38: the last address of the owning window fits the 16 bits of a bus word (`maxAddr_le`), so it does not wrap. -/
theorem maxAddrReturnsTheLastAddress : Obligations.MaxAddrReturnsTheLastAddress := by
  intro s
  have fits := maxAddr_le s.cfg
  refine ⟨BitVec.ofNat 16 (maxAddr s.cfg), exec_maxAddr s, ?_⟩
  rw [BitVec.toNat_ofNat, Nat.mod_eq_of_lt (by omega), maxAddr]

/-- Settles O49: of the inputs, the host's write is the one that the step refuses. -/
theorem hostWriteIsRefused : Obligations.HostWriteIsRefused := by
  intro s addrs data rest inputs
  simp only [step, inputs]

end Sys2Proof.Machine

namespace Sys2Proof.Machine

/-! The invariant of the machine is kept (10_state.md R25, R26, R27). -/

/-- The invariant reads the configuration and the banks alone. -/
theorem State.Inv.withHostFields {s : State} (inv : s.Inv) (is : List Input) (replies : List (List Int))
    (sent : List Nat) (ret : Returned) :
    State.Inv { s with inputs := is, replies := replies, sent := sent, ret := ret } :=
  ⟨inv.banks_length, inv.bank_ok⟩

theorem State.Inv.of_hostOnly {s t : State} (inv : s.Inv) (h : HostOnly s t) : t.Inv := by
  unfold HostOnly at h
  rw [h]
  exact inv.withHostFields _ _ _ _

theorem State.Inv.takeEdge {s : State} (inv : s.Inv) : s.takeEdge.Inv := by
  rw [takeEdge_eq]
  exact inv.withHostFields _ _ _ _

theorem State.Inv.takeReset {s : State} (inv : s.Inv) : s.takeReset.Inv := by
  rw [takeReset_eq]
  exact inv.withHostFields _ _ _ _

/-- An edge that does not fault keeps all banks, each of them well. -/
theorem State.Inv.edgeState {b : BusTxn} {u : UserWord} {s : State} (inv : s.Inv)
    (inRange : userOutOfRange s.cfg u = false) : (edgeState b u s).Inv where
  banks_length := edgeState_banks_length b u s
  bank_ok i hi := bankOk_edgeState inRange hi (inv.bank_ok i hi)

/-- A platform reset keeps all banks: row 0 is a row of every bank, the draw is cut to the bank's width, and the rows stay. -/
theorem State.Inv.platformReset {s : State} (inv : s.Inv) : (platformReset s).Inv where
  banks_length := platformReset_banks_length s
  bank_ok i hi := by
    obtain ⟨-, -, rows_wf, row_lt, value_lt⟩ := inv.bank_ok i hi
    rw [platformReset_bank s hi]
    exact ⟨s.cfg.depth_pos, drawFor_toNat_lt _ _ _ _, rows_wf, row_lt, value_lt⟩

/-- Settles O21, by the three things a step can be (`step_cases`): a clock edge in range, a host call, a platform reset. -/
theorem stepKeepsTheInvariant : Obligations.StepKeepsTheInvariant := by
  intro s t inv stepped
  obtain ⟨inRange, rfl⟩ | hostOnly | rfl := step_cases stepped
  · exact inv.takeEdge.edgeState (by simpa using inRange)
  · exact inv.of_hostOnly hostOnly
  · exact inv.takeReset.platformReset

/-- A constructed core meets the invariant. -/
theorem inv_initial (cfg : CoreConfig) (core : Nat) : (State.initial cfg core).Inv where
  banks_length := initial_banks_length cfg core
  bank_ok i _ := by
    rw [initial_bank]
    exact bankOk_initialBank cfg core i

/-- Settles O12: the state after reset is the constructed core of K33. -/
theorem constructedStatesMeetTheInvariant : Obligations.ConstructedStatesMeetTheInvariant :=
  ⟨inv_initial, inv_initial CoreConfig.k33 0⟩

end Sys2Proof.Machine

namespace Sys2Proof

/-- Settles O52: kind by kind, the decoder reads a packed word by the condition that well-formedness asks of the kind. -/
theorem decodeOfEncodeIsTheInstruction : Obligations.DecodeOfEncodeIsTheInstruction :=
  fun _ _ => decode_encode

end Sys2Proof

namespace Sys2Proof.Machine

/-! The numbers of a configuration: BANK_COUNT and AW (00_scope.md R9, 40_address_decoder.md R80, R81). -/

/-- Settles O2: BANK_COUNT rounds the width up to whole banks (`bankCount_eq`), and a bank has 16 bits or what the banks before
it leave (`bankWidth_eq_min`). -/
theorem bankCountIsCeilOfWidth : Obligations.BankCountIsCeilOfWidth := by
  intro cfg
  have positive := cfg.width_pos
  have count := bankCount_eq cfg
  have last := bankWidth_eq_min (cfg := cfg) (i := bankCount cfg - 1) (by omega)
  refine ⟨width_le_bankBits cfg, ?_, ?_, ?_, ?_, ?_⟩
  · intro n covers
    omega
  · intro i below
    rw [bankWidth_eq_min (by omega)]
    omega
  all_goals omega

/-- AW is the least exponent that covers DEPTH (R9, D22). -/
theorem addrWidth_le_iff (cfg : CoreConfig) (k : Nat) : addrWidth cfg ≤ k ↔ cfg.depth ≤ 2 ^ k := by
  unfold addrWidth
  split_ifs with one
  · have covered := Nat.two_pow_pos k
    omega
  · rw [Nat.succ_le_iff, Nat.log2_lt (by omega)]
    omega

/-- Settles O3: both halves are `addrWidth_le_iff`, the first at AW itself. -/
theorem addrWidthIsCeilLog2 : Obligations.AddrWidthIsCeilLog2 :=
  fun cfg => ⟨(addrWidth_le_iff cfg _).1 (Nat.le_refl _), fun k => (addrWidth_le_iff cfg k).2⟩

/-! The bank and the row of an address (40_address_decoder.md R86, R88). -/

/-- An address of the window is the row of its offset, counted from START of the offset's bank (R86). -/
theorem windowStart_add_mod {cfg : CoreConfig} {a : Nat} (h : cfg.base ≤ a) :
    windowStart cfg ((a - cfg.base) / cfg.depth) + (a - cfg.base) % cfg.depth = a := by
  have split := Nat.div_add_mod' (a - cfg.base) cfg.depth
  unfold windowStart
  omega

/-- The row of an address of the window, in the bank of its offset (R86). -/
theorem sub_windowStart_eq_mod {cfg : CoreConfig} {a : Nat} (h : cfg.base ≤ a) :
    a - windowStart cfg ((a - cfg.base) / cfg.depth) = (a - cfg.base) % cfg.depth := by
  have address := windowStart_add_mod h
  omega

theorem inWindow_iff_le (cfg : CoreConfig) (a : Nat) : inWindow cfg a = true ↔ cfg.base ≤ a ∧ a ≤ maxAddr cfg := by
  simp [inWindow]

/-- Settles O5: the owner of an address is the quotient of its offset (`owns_iff`), START of that bank and the remainder make up
the address (`windowStart_add_mod`), and conversely a bank owns START plus any row (`owns_windowStart_add_iff`). -/
theorem ownedAddressDecodesToBankAndRow : Obligations.OwnedAddressDecodesToBankAndRow := by
  constructor
  · intro cfg a base_le le_max
    obtain ⟨-, bank⟩ := (inWindow_iff cfg a).1 ((inWindow_iff_le cfg a).2 ⟨base_le, le_max⟩)
    exact ⟨selectBank_of_owns bank ((owns_iff cfg _ a).2 ⟨base_le, rfl⟩), bank, sub_windowStart_eq_mod base_le,
      Nat.mod_lt _ cfg.depth_pos, (windowStart_add_mod base_le).symm⟩
  · intro cfg i r hi hr
    have own := (owns_windowStart_add_iff cfg i r).2 hr
    exact ⟨(exists_owner_iff_inWindow cfg _).1 ⟨i, hi, own⟩, selectBank_of_owns hi own⟩

/-- The selector is undefined exactly outside the owning window (R88). -/
theorem selectBank_eq_none_iff {cfg : CoreConfig} {a : Nat} : selectBank cfg a = none ↔ inWindow cfg a = false := by
  rw [← Bool.not_eq_true, ← exists_owner_iff_inWindow, Option.eq_none_iff_forall_ne_some, not_exists]
  simp only [ne_eq, selectBank_eq_some_iff]

/-- Settles O6: the windows are disjoint (`owns_unique`), and the selector picks an owner exactly where there is one
(`selectBank_eq_some_iff`, `selectBank_eq_none_iff`). -/
theorem bankSelectorIsOneHot : Obligations.BankSelectorIsOneHot :=
  ⟨fun _ _ _ _ _ _ own own' => owns_unique own own', fun _ _ _ => selectBank_eq_some_iff,
    fun _ _ => selectBank_eq_none_iff⟩

end Sys2Proof.Machine

namespace Sys2Proof.Machine

/-! Successive clock edges as one function, and the way of a word through the pipeline (41_pipeline.md R100 to R105, R122). -/

/-- The state after edges that sample the given words, none of them out of range. -/
def edgeStates (ws : List (BusTxn × UserWord)) (s : State) : State := ws.foldl (fun t p => edgeState p.1 p.2 t) s

/-- A run of edges answers a next state exactly when the guard lets every one of its user-port words. -/
theorem clockEdges_next {ws : List (BusTxn × UserWord)} {s t : State} :
    clockEdges ws s = .next t ↔ (∀ p ∈ ws, userOutOfRange s.cfg p.2 = false) ∧ t = edgeStates ws s := by
  induction ws generalizing s with
  | nil => simpa [clockEdges, edgeStates] using eq_comm
  | cons p ws ih =>
    rw [clockEdges_cons, ih, List.forall_mem_cons, and_assoc]
    rfl

theorem clockEdges_of_allInRange {ws : List (BusTxn × UserWord)} {s : State}
    (h : ∀ p ∈ ws, userOutOfRange s.cfg p.2 = false) : clockEdges ws s = .next (edgeStates ws s) := clockEdges_next.2 ⟨h, rfl⟩

/-- Settles O9: at most three edges load `bus_o` with a stage of the constructed core, all of them idle, and egress keeps
`valid` (R102). -/
theorem noValidOutputBeforeTheFourthState : Obligations.NoValidOutputBeforeTheFourthState := by
  intro cfg core ws t short run
  obtain ⟨-, rfl⟩ := clockEdges_next.1 run
  match ws, short with
  | [], _ => rfl
  | [_], _ => exact egress_valid _
  | [_, _], _ => exact egress_valid _
  | [_, _, _], _ => exact egress_valid _

/-- A draw already has the bits of its bank (R112). -/
theorem zext16_drawNow (s : State) (i : Nat) : zext16 (bankWidth s.cfg i) (s.drawNow i) = s.drawNow i :=
  zext16_zext16 _ _

/-- Settles O19: what the read port latches and what the written row holds after the edge (`rdata_edgeState`,
`memRead_edgeState`). -/
theorem readPortLatchesTheOldRow : Obligations.ReadPortLatchesTheOldRow := by
  intro b u s inRange
  refine ⟨_, clockEdge_of_inRange inRange, fun i hi => ?_⟩
  rw [rdata_edgeState b u s hi]
  split_ifs with collision
  · refine ⟨rfl, ?_⟩
    rw [memRead_edgeState b u s hi, if_pos ⟨collision.1, rfl⟩]
  · rfl

/-- No bank launches a word that is no valid read owned by the core (R104). -/
theorem launches_of_not_ownedRead {cfg : CoreConfig} {b : BusTxn} (h : isOwnedRead cfg b = false) {i : Nat}
    (hi : i < bankCount cfg) : launches cfg i b = false := by
  by_contra launch
  obtain ⟨read, own⟩ := launches_iff.1 (Bool.not_eq_false _ ▸ launch)
  have window := (exists_owner_iff_inWindow cfg b.addr.toNat).1 ⟨i, hi, own⟩
  simp [isOwnedRead, read, window] at h

/-- Egress of a word that is no valid read owned by the core: the word as it stands. -/
theorem egress_of_not_ownedRead {s : State} (h : isOwnedRead s.cfg s.stage2 = false) : egress s = s.stage2 :=
  egress_of_not_launches fun _ hi => launches_of_not_ownedRead h hi

/-- A word in stage 0 is in stage 2 two edges later, where the third edge loads `bus_o` from it. -/
theorem appearsThreeEdgesLater_stage0 {t : State} (h : isOwnedRead t.cfg t.stage0 = false) :
    AppearsThreeEdgesLater t.stage0 t := by
  intro p1 p2 p3 t' run
  obtain ⟨-, rfl⟩ := clockEdges_next.1 run
  exact egress_of_not_ownedRead (s := edgeStates [p1, p2] t) h

/-- A word that is no valid read owned by the core is on `bus_o` after the edge that samples it and three more (R122). -/
theorem busO_of_not_ownedRead {s t : State} {b : BusTxn} {u : UserWord} {p1 p2 p3 : BusTxn × UserWord}
    (notOwned : isOwnedRead s.cfg b = false) (run : clockEdges [(b, u), p1, p2, p3] s = .next t) : t.busO = b :=
  appearsThreeEdgesLater_stage0 (t := edgeState b u s) notOwned p1 p2 p3 t (clockEdges_cons.1 run).2

/-- Settles O29: the run completes (`clockEdges_of_allInRange`), and brings the word to `bus_o` (`busO_of_not_ownedRead`). -/
theorem passThroughAfterFourEdges : Obligations.PassThroughAfterFourEdges := by
  intro s b0 b1 b2 b3 u0 u1 u2 u3 notOwned h0 h1 h2 h3
  have run : clockEdges [(b0, u0), (b1, u1), (b2, u2), (b3, u3)] s = .next _ :=
    clockEdges_of_allInRange (by simp [h0, h1, h2, h3])
  exact ⟨_, run, busO_of_not_ownedRead notOwned run⟩

/-! The bus transaction kinds (41_pipeline.md R106 to R109). -/

/-- What an edge does with a word that is no valid read owned by the core: the shift, and nothing else because of it. -/
theorem sampleBus_of_not_ownedRead {b : BusTxn} {s : State} (notOwned : isOwnedRead s.cfg b = false)
    (inRange : userOutOfRange s.cfg s.userNow = false) :
    ∃ t, sampleBus b s = .next t ∧ EdgeFrame b s.userNow s t ∧ Latches s.userNow s t ∧ KeepsRaddr s t ∧
      AppearsThreeEdgesLater b t := by
  refine ⟨_, sampleBus_of_inRange inRange, edgeFrame_edgeState b s.userNow s, latches_edgeState b s.userNow s,
    keepsRaddr_edgeState fun _ hi => launches_of_not_ownedRead notOwned hi, ?_⟩
  exact appearsThreeEdgesLater_stage0 (t := edgeState b s.userNow s.takeEdge) (by simpa using notOwned)

/-- Settles O26: a read outside the window is not owned. -/
theorem unownedReadLaunchesNothing : Obligations.UnownedReadLaunchesNothing := by
  intro a d s unowned inRange
  exact sampleBus_of_not_ownedRead (by simp [isOwnedRead, unowned]) inRange

/-- Settles O27: a write, owned or not, is no read, and both kinds run the same edge. -/
theorem busWritesChangeNoStorage : Obligations.BusWritesChangeNoStorage := by
  intro a d s inRange
  obtain ⟨t, run, effect⟩ :=
    sampleBus_of_not_ownedRead (b := { addr := a, data := d, readWrite := true, valid := true }) rfl inRange
  exact ⟨t, run, run, effect⟩

/-- Settles O28: an idle word is no valid read. -/
theorem idleOnlyShifts : Obligations.IdleOnlyShifts :=
  fun _ _ _ _ inRange => sampleBus_of_not_ownedRead rfl inRange

/-- The bank that launches a read of the window is the quotient of its offset (R86, R104). -/
theorem launches_iff_eq_div {cfg : CoreConfig} {b : BusTxn} (read : isRead b = true)
    (window : inWindow cfg b.addr.toNat = true) (i : Nat) :
    launches cfg i b = true ↔ i = (b.addr.toNat - cfg.base) / cfg.depth := by
  rw [launches_iff, owns_iff, eq_comm (a := i)]
  simp [read, ((inWindow_iff_le cfg _).1 window).1]

/-- A read that bank `i` launched at the edge before is answered three edges later with what the bank's read port latched in
between (R102). -/
theorem busO_of_launched {t t3 t4 : State} {i : Nat} {p1 p2 p3 : BusTxn × UserWord} (hi : i < bankCount t.cfg)
    (launch : launches t.cfg i t.stage0 = true) (run : clockEdges [p1, p2] t = .next t3)
    (edge : clockEdge p3.1 p3.2 t3 = .next t4) :
    t4.busO = { t.stage0 with data := zext16 (bankWidth t.cfg i) (t3.bank i).rdata } := by
  obtain ⟨-, rfl⟩ := clockEdges_next.1 run
  obtain ⟨-, rfl⟩ := clockEdge_next.1 edge
  exact egress_of_launches (s := edgeStates [p1, p2] t) hi launch

/-- Settles O25: the one bank that launches the word takes the remainder of the offset for its row (`launches_iff_eq_div`), and
three edges later that bank's read data answers it (`busO_of_launched`). -/
theorem ownedReadLaunchesItsRow : Obligations.OwnedReadLaunchesItsRow := by
  intro a d s window inRange
  have launch := launches_iff_eq_div (b := { addr := a, data := d, readWrite := false, valid := true }) rfl window
  obtain ⟨base_le, bank⟩ := (inWindow_iff s.cfg a.toNat).1 window
  refine ⟨_, sampleBus_of_inRange inRange, edgeFrame_edgeState _ _ s, latches_edgeState _ _ s, ?_, ?_⟩
  · intro i hi
    rw [raddr_edgeState _ _ _ (by simpa using hi)]
    simp only [takeEdge_cfg, takeEdge_bank, launch]
    split_ifs with own
    · rw [own, sub_windowStart_eq_mod base_le]
    · rfl
  · intro p1 p2 p3 t3 t4 run edge
    have answer := busO_of_launched (by simpa using bank) (by simpa using (launch _).2 rfl) run edge
    simpa using answer

end Sys2Proof.Machine

namespace Sys2Proof.Machine

/-! The answer of an owned read, and its hazards (41_pipeline.md R110, R121; 70_reset_and_hazards.md R190, R191). -/

/-- UPORT_NOP writes no row (R113). -/
theorem not_writesRow_nop (r : Nat) : ¬ WritesRow UserWord.nop r := fun write => Bool.false_ne_true write.1

/-- The written slice already has the bits of its bank (R110). -/
theorem zext16_userSlice (cfg : CoreConfig) (i ud : Nat) :
    zext16 (bankWidth cfg i) (userSlice cfg i ud) = userSlice cfg i ud := zext16_of_lt (userSlice_toNat_lt cfg i ud)

section Answer
variable {s : State} {i r : Nat} {b : BusTxn} {u : UserWord} (hi : i < bankCount s.cfg)
include hi

theorem raddr_edgeState_of_launches (h : launches s.cfg i b = true) :
    ((edgeState b u s).bank i).raddr = rowOf s.cfg i b.addr := by
  rw [raddr_edgeState b u s hi, if_pos h, rowOf]

theorem raddr_edgeState_of_not_launches (h : launches s.cfg i b = false) :
    ((edgeState b u s).bank i).raddr = (s.bank i).raddr := by
  rw [raddr_edgeState b u s hi, h, if_neg Bool.false_ne_true]

theorem memRead_edgeState_of_writes (b : BusTxn) (h : WritesRow u r) :
    (edgeState b u s).memRead i r = userSlice s.cfg i u.data := by
  rw [memRead_edgeState b u s hi, if_pos ⟨h.1, h.2.symm⟩]

theorem memRead_edgeState_of_not_writes (b : BusTxn) (h : ¬ WritesRow u r) :
    (edgeState b u s).memRead i r = s.memRead i r := by
  rw [memRead_edgeState b u s hi, if_neg fun write => h ⟨write.1, write.2.symm⟩]

theorem rdata_edgeState_of_writes (b : BusTxn) (h : WritesRow u (s.bank i).raddr) :
    ((edgeState b u s).bank i).rdata = s.drawNow i := (rdata_edgeState b u s hi).trans (if_pos h)

theorem rdata_edgeState_of_not_writes (b : BusTxn) (h : ¬ WritesRow u (s.bank i).raddr) :
    ((edgeState b u s).bank i).rdata = s.memRead i (s.bank i).raddr := (rdata_edgeState b u s hi).trans (if_neg h)

/-- A read in stage 1 is answered two edges later: the first of them latches the row that `raddr` names, or a draw where that
edge writes it (R105, R112), and the second loads `bus_o` with what was latched (R102). -/
theorem busO_of_launches_stage1 (launch : launches s.cfg i s.stage1 = true) (raddr : (s.bank i).raddr = r)
    (b b' : BusTxn) (u u' : UserWord) :
    (¬ WritesRow u r → (edgeState b' u' (edgeState b u s)).busO =
      { s.stage1 with data := zext16 (bankWidth s.cfg i) (s.memRead i r) }) ∧
    (WritesRow u r → (edgeState b' u' (edgeState b u s)).busO = { s.stage1 with data := s.drawNow i }) := by
  subst raddr
  have loaded : (edgeState b' u' (edgeState b u s)).busO =
      { s.stage1 with data := zext16 (bankWidth s.cfg i) ((edgeState b u s).bank i).rdata } :=
    egress_of_launches (s := edgeState b u s) hi launch
  constructor
  · intro keeps
    rw [loaded, rdata_edgeState_of_not_writes hi b keeps]
  · intro write
    rw [loaded, rdata_edgeState_of_writes hi b write, zext16_drawNow]

/-- Two edges after a read of bank `i` was sampled, with no other read of that bank at the second, `raddr[i]` names its row. -/
theorem raddr_after_soleRead {b0 b1 : BusTxn} (h0 : launches s.cfg i b0 = true) (h1 : launches s.cfg i b1 = false)
    (u0 u1 : UserWord) : ((edgeState b1 u1 (edgeState b0 u0 s)).bank i).raddr = rowOf s.cfg i b0.addr := by
  rw [raddr_edgeState_of_not_launches (s := edgeState b0 u0 s) hi h1, raddr_edgeState_of_launches hi h0]

/-- The answer of a read of bank `i` with no other read of that bank at the next edge: its row as the third edge finds it, or
the draw of that edge where it writes the row (R121, R191). -/
theorem busO_of_soleRead {b0 b1 : BusTxn} (h0 : launches s.cfg i b0 = true) (h1 : launches s.cfg i b1 = false)
    (b2 b3 : BusTxn) (u0 u1 u2 u3 : UserWord) :
    (¬ WritesRow u2 (rowOf s.cfg i b0.addr) →
      (edgeState b3 u3 (edgeState b2 u2 (edgeState b1 u1 (edgeState b0 u0 s)))).busO =
        { b0 with data := zext16 (bankWidth s.cfg i)
                    ((edgeState b1 u1 (edgeState b0 u0 s)).memRead i (rowOf s.cfg i b0.addr)) }) ∧
    (WritesRow u2 (rowOf s.cfg i b0.addr) →
      (edgeState b3 u3 (edgeState b2 u2 (edgeState b1 u1 (edgeState b0 u0 s)))).busO =
        { b0 with data := (edgeState b1 u1 (edgeState b0 u0 s)).drawNow i }) :=
  busO_of_launches_stage1 (s := edgeState b1 u1 (edgeState b0 u0 s)) hi h0 (raddr_after_soleRead hi h0 h1 u0 u1) b2 b3 u2 u3

end Answer

/-- Settles O30. The response is loaded from what bank `i` latches two edges after the read: the row that `raddr[i]` then names,
which is the read's own (`busO_of_soleRead`) or that of the next word (`busO_of_launches_stage1`). -/
theorem ownedReadIsAnsweredAfterFourEdges : Obligations.OwnedReadIsAnsweredAfterFourEdges := by
  intro s b0 b1 b2 b3 u0 u1 u2 u3 i hi launch h0 h1 h2 h3
  obtain ⟨valid, read⟩ := isRead_iff.1 (launches_iff.1 launch).1
  have own (h : launches s.cfg i b1 = false) := busO_of_soleRead hi launch h b2 b3 u0 u1 u2 u3
  have next (h : launches s.cfg i b1 = true) := busO_of_launches_stage1 (s := edgeState b1 u1 (edgeState b0 u0 s)) hi launch
    (raddr_edgeState_of_launches (s := edgeState b0 u0 s) hi h) b2 b3 u2 u3
  refine ⟨edgeState b1 u1 (edgeState b0 u0 s), edgeState b3 u3 (edgeState b2 u2 (edgeState b1 u1 (edgeState b0 u0 s))),
    clockEdges_of_allInRange (by simp [h0, h1]), clockEdges_of_allInRange (by simp [h2, h3]), ?_, ?_, ?_, ?_, ?_, ?_, ?_, ?_⟩
  · exact (egress_valid _).trans valid
  · exact egress_addr _
  · exact (egress_readWrite _).trans read
  · intro keeps0 keeps1
    rw [memRead_edgeState_of_not_writes (s := edgeState b0 u0 s) hi b1 keeps1, memRead_edgeState_of_not_writes hi b0 keeps0]
  · intro other keeps
    exact congrArg BusTxn.data ((own other).1 keeps)
  · intro other write
    exact congrArg BusTxn.data ((own other).2 write)
  · intro second keeps
    exact congrArg BusTxn.data ((next second).1 keeps)
  · intro second write
    exact congrArg BusTxn.data ((next second).2 write)

/-- Settles O31: the second read overwrites `raddr[i]` before the first read's row is latched, and, with no third read, the row
that both edges latch is the second's. -/
theorem backToBackReadsOfOneBankCollide : Obligations.BackToBackReadsOfOneBankCollide := by
  intro s b0 b1 b2 b3 b4 i hi first second third
  have raddr : ((edgeState b1 .nop (edgeState b0 .nop s)).bank i).raddr = rowOf s.cfg i b1.addr :=
    raddr_edgeState_of_launches (s := edgeState b0 .nop s) hi second
  have answer := (busO_of_launches_stage1 (s := edgeState b1 .nop (edgeState b0 .nop s)) hi first raddr b2 b3 .nop .nop).1
    (not_writesRow_nop _)
  have answer' := (busO_of_soleRead (s := edgeState b0 .nop s) hi second third b3 b4 .nop .nop .nop .nop).1
    (not_writesRow_nop _)
  refine ⟨_, _, rfl, rfl, answer.trans ?_, answer'.trans ?_⟩
  · rw [memRead_edgeState_nop (s := edgeState b0 .nop s) hi, memRead_edgeState_nop hi]
    rfl
  · rw [memRead_edgeState_nop (s := edgeState b1 .nop (edgeState b0 .nop s)) hi,
      memRead_edgeState_nop (s := edgeState b0 .nop s) hi, memRead_edgeState_nop hi]
    rfl

/-- Settles O32. The answer is the row as it stands after the edge t+1, or a draw where edge t+2 writes it
(`busO_of_soleRead`); a write at the edges t-1, t or t+1 is in the row by then, one at t+3 comes too late. -/
theorem writeToReadDistance : Obligations.WriteToReadDistance := by
  intro s c b0 b1 b2 b3 i v hi h0 h1 n w
  have write : WritesRow w (rowOf s.cfg i b0.addr) := ⟨rfl, rfl⟩
  have quiet : ¬ WritesRow n (rowOf s.cfg i b0.addr) := not_writesRow_nop _
  have inRange : userOutOfRange s.cfg w = false := by
    have row : rowOf s.cfg i b0.addr < s.cfg.depth := owns_row_lt (launches_iff.1 h0).2
    simpa [w, userOutOfRange] using row
  have answer := busO_of_soleRead hi h0 h1 b2 b3
  have run (ws : List (BusTxn × UserWord)) (words : ∀ p ∈ ws, p.2 = n ∨ p.2 = w) :
      clockEdges ws s = .next (edgeStates ws s) := by
    refine clockEdges_of_allInRange fun p hp => ?_
    obtain quietWord | writeWord := words p hp
    · rw [quietWord, nop_inRange]
    · rw [writeWord, inRange]
  refine ⟨⟨_, run _ (by simp), ?_⟩, ⟨_, run _ (by simp), ?_⟩, ⟨_, run _ (by simp), ?_⟩, ⟨_, run _ (by simp), ?_⟩,
    ⟨_, run _ (by simp), ?_⟩⟩
  · refine ((busO_of_soleRead (s := edgeState c w s) hi h0 h1 b2 b3 n n n n).1 quiet).trans ?_
    rw [edgeState_cfg, memRead_edgeState_of_not_writes (s := edgeState b0 n (edgeState c w s)) hi b1 quiet,
      memRead_edgeState_of_not_writes (s := edgeState c w s) hi b0 quiet, memRead_edgeState_of_writes hi c write,
      zext16_userSlice]
  · refine ((answer w n n n).1 quiet).trans ?_
    rw [memRead_edgeState_of_not_writes (s := edgeState b0 w s) hi b1 quiet, memRead_edgeState_of_writes hi b0 write,
      zext16_userSlice]
  · refine ((answer n w n n).1 quiet).trans ?_
    rw [memRead_edgeState_of_writes (s := edgeState b0 n s) hi b1 write, edgeState_cfg, zext16_userSlice]
  · exact (answer n n w n).2 write
  · refine ((answer n n n w).1 quiet).trans ?_
    rw [memRead_edgeState_of_not_writes (s := edgeState b0 n s) hi b1 quiet, memRead_edgeState_of_not_writes hi b0 quiet]

end Sys2Proof.Machine

namespace Sys2Proof.Machine

/-! The user-port kinds (41_pipeline.md R110, R111, R116). -/

theorem userOutOfRange_iff {cfg : CoreConfig} {u : UserWord} :
    userOutOfRange cfg u = true ↔ u.we = true ∧ cfg.depth ≤ u.addr := by
  simp [userOutOfRange]

/-- Settles O33: a write of a row below DEPTH is in range, so its edge completes with its frame, and the row of every bank holds
its slice (`memRead_edgeState_of_writes`). -/
theorem sideChannelWritesOneRowOfEveryBank : Obligations.SideChannelWritesOneRowOfEveryBank := by
  intro a v s ha
  have inRange : userOutOfRange s.cfg { addr := a, data := v, we := true } = false := by simpa [userOutOfRange] using ha
  refine ⟨_, sampleUser_of_inRange inRange, edgeFrame_edgeState _ _ s, latches_edgeState _ _ s, fun i hi => ⟨?_, ?_⟩⟩
  · rw [memRead_edgeState_of_writes (by simpa using hi) s.busNow ⟨rfl, rfl⟩, takeEdge_cfg]
    rfl
  · rw [raddr_edgeState _ _ _ (by simpa using hi), takeEdge_cfg, takeEdge_bank]
    rfl

/-- The edge of a bus instruction, where the user port's word is out of range. -/
theorem sampleBus_of_outOfRange {b : BusTxn} {s : State} (h : userOutOfRange s.cfg s.userNow = true) :
    sampleBus b s = .fault (.userAddrOutOfRange s.edgeNo s.userNow.addr) := by
  rw [sampleBus, clockEdge_fault (by simpa using h), takeEdge_edgeNo]

/-- The edge of a user-port instruction, where its word is out of range. -/
theorem sampleUser_of_outOfRange {u : UserWord} {s : State} (h : userOutOfRange s.cfg u = true) :
    sampleUser u s = .fault (.userAddrOutOfRange s.edgeNo u.addr) := by
  rw [sampleUser, clockEdge_fault (by simpa using h), takeEdge_edgeNo]

/-- DEPTH fills its address width exactly when it is a power of two (R111). -/
theorem exists_addr_outOfRange_iff (cfg : CoreConfig) :
    (∃ a, a < 2 ^ addrWidth cfg ∧ cfg.depth ≤ a) ↔ ∀ k, cfg.depth ≠ 2 ^ k := by
  constructor
  · rintro ⟨a, fits, outside⟩ k power
    have width_le : addrWidth cfg ≤ k := (addrWidth_le_iff cfg k).2 power.le
    have depth_ge : 2 ^ addrWidth cfg ≤ 2 ^ k := Nat.pow_le_pow_right (by decide) width_le
    omega
  · intro noPower
    have covered : cfg.depth ≤ 2 ^ addrWidth cfg := (addrWidth_le_iff cfg _).1 (Nat.le_refl _)
    exact ⟨cfg.depth, lt_of_le_of_ne covered (noPower _), Nat.le_refl _⟩

/-- Settles O34: the guard of R111 is the whole condition of an edge's fault, on either port's path, and DEPTH leaves an address
over exactly when it is no power of two (`exists_addr_outOfRange_iff`). -/
theorem outOfRangeSideChannelWriteFaults : Obligations.OutOfRangeSideChannelWriteFaults := by
  refine ⟨?_, ?_, ?_, ?_, exists_addr_outOfRange_iff⟩
  · intro b u s we outside
    exact clockEdge_fault (userOutOfRange_iff.2 ⟨we, outside⟩)
  · intro a v s outside
    exact sampleUser_of_outOfRange (userOutOfRange_iff.2 ⟨rfl, outside⟩)
  · intro b s we outside
    rw [exec_decodeBus]
    exact sampleBus_of_outOfRange (userOutOfRange_iff.2 ⟨we, outside⟩)
  · intro b u s f fault
    rw [← userOutOfRange_iff]
    by_contra inRange
    rw [clockEdge_of_inRange (by simpa using inRange)] at fault
    cases fault

end Sys2Proof.Machine

namespace Sys2Proof.Machine

/-! VALUE_TO_WORDS, BANK_WIDTHS, and the calls whose operands have no stated result (40_address_decoder.md R80, R83,
42_word_codec.md R132). -/

/-- VALUE_TO_WORDS hands the host the answer of `wordsOf`. -/
theorem exec_valueToWords (v : Int) (n : Nat) (s : State) :
    exec (.valueToWords v n) s = returnToHost (returnedWords (wordsOf v n)) s := rfl

/-- A value that no `n` words hold raises RangeError (R132, D14). -/
theorem valueToWords_of_bad {v : Int} {n : Nat} (h : v < 0 ∨ 2 ^ (16 * n) ≤ v) : valueToWords v n = none := by
  unfold valueToWords
  split_ifs with negative wide
  · rfl
  · rfl
  · exact (h.elim negative wide).elim

/-- Settles O40: for a u32 `n_words` the answer is that of `value_to_words` (`wordsOf_of_lt`), which splits a value that fits into
its low words (`valueToWords_of_lt`) and refuses every other (`valueToWords_of_bad`). -/
theorem valueToWordsSplitsTheValue : Obligations.ValueToWordsSplitsTheValue := by
  intro v n s hn
  rw [exec_valueToWords, wordsOf_of_lt hn]
  constructor
  · intro nonneg fits
    lift v to Nat using nonneg
    rw [valueToWords_of_lt (by exact_mod_cast fits), Int.toNat_natCast]
    exact ⟨lowWords v n, rfl, by simp [lowWords], fun j hj => lowWords_getElem? hj⟩
  · intro bad
    rw [valueToWords_of_bad bad]
    rfl

/-- BANK_WIDTHS hands the host the widths of the banks, where the spec gives them. -/
theorem exec_bankWidths (w : Nat) (s : State) :
    exec (.bankWidths w) s = returnToHost (.widths (if 1 ≤ w then bankWidths w else Config.widthsOfZero)) s := rfl

/-- Settles O41: the operand decides which value is handed over (`windowOf_of_ge`, `wordsOf_of_neg`, `wordsOf_of_ge`), and a call
that hands over a value changes nothing else. -/
theorem operandsWithoutAStatedResultRun : Obligations.OperandsWithoutAStatedResultRun := by
  refine ⟨fun s => rfl, ?_, ?_⟩
  · intro i s outside
    rw [exec_window, windowOf_of_ge outside]
    rfl
  · intro v n s wide
    rw [exec_valueToWords]
    constructor
    · intro negative
      rw [wordsOf_of_neg negative]
      rfl
    · intro nonneg
      rw [wordsOf_of_ge wide nonneg]
      rfl

/-- Settles O36: the three branches are those of `bank_widths`, and BW(i) is by definition its entry `i`. -/
theorem bankWidthsReturnsThePartition : Obligations.BankWidthsReturnsThePartition := by
  intro w s positive
  refine ⟨?_, bankWidths w, ?_, ?_, ?_, ?_⟩
  · intro i hi
    have listed : i < (bankWidths s.cfg.width).length := hi
    simp [bankWidth, listed]
  · rw [exec_bankWidths, if_pos positive]
    rfl
  · intro small
    rw [bankWidths, if_pos small]
  · intro large multiple
    rw [bankWidths, if_neg large.not_gt, if_pos multiple]
  · intro large rest
    rw [bankWidths, if_neg large.not_gt, if_neg rest]

/-! READ_FROM_USER_ADDR: its checks and the conversion of the reply (43_host_read.md R140, R147; 60_exceptions.md R165, R169). -/

theorem addrOutOfRange_iff {cfg : CoreConfig} {a : Int} : addrOutOfRange cfg a = true ↔ ¬ IsLogicalAddr cfg a := by
  rw [addrOutOfRange, IsLogicalAddr, Bool.or_eq_true, decide_eq_true_eq, decide_eq_true_eq, not_and_or, not_le, not_lt]

theorem addrOutOfRange_of_logical {cfg : CoreConfig} {a : Int} (h : IsLogicalAddr cfg a) : addrOutOfRange cfg a = false := by
  by_contra outside
  exact addrOutOfRange_iff.1 (by simpa using outside) h

/-- The first address outside the rows stops the call before the transport is called (D16). -/
theorem exec_readFromUserAddr_of_bad {x : Addrs} {s : State} {good bad : List Int} {a : Int}
    (order : addrList x = good ++ a :: bad) (logical : ∀ c ∈ good, IsLogicalAddr s.cfg c) (outside : ¬ IsLogicalAddr s.cfg a) :
    exec (.readFromUserAddr x) s = .fault (.hostAddrOutOfRange a) := by
  have first : (addrList x).find? (addrOutOfRange s.cfg) = some a := by
    rw [order, List.find?_eq_some_iff_append]
    exact ⟨addrOutOfRange_iff.2 outside, good, bad, rfl, fun c hc => by
      rw [addrOutOfRange_of_logical (logical c hc), Bool.not_false]⟩
  simp only [exec, execReadFromUserAddr, first]

section ReadFromUserAddr
variable {x : Addrs} {s : State} {reply : List Int} {rest : List (List Int)}
  (logical : ∀ a ∈ addrList x, IsLogicalAddr s.cfg a)
include logical

theorem find?_addrOutOfRange_of_logical : (addrList x).find? (addrOutOfRange s.cfg) = none :=
  List.find?_eq_none.2 fun a ha => by
    rw [addrOutOfRange_of_logical (logical a ha)]
    exact Bool.false_ne_true

/-- A transport with no reply to come leaves the call stuck (U10). -/
theorem exec_readFromUserAddr_of_noReply (replies : s.replies = []) :
    exec (.readFromUserAddr x) s = .fault .transportNeverReplies := by
  simp only [exec, execReadFromUserAddr, find?_addrOutOfRange_of_logical logical, replies]

/-- A reply of another length than the request stops the call (D18). -/
theorem exec_readFromUserAddr_of_badLength (replies : s.replies = reply :: rest)
    (length : reply.length ≠ (addrList x).length * bankCount s.cfg) :
    exec (.readFromUserAddr x) s =
      .fault (.transportProtocol ((addrList x).length * bankCount s.cfg) reply.length) := by
  simp only [exec, execReadFromUserAddr, find?_addrOutOfRange_of_logical logical, replies, requestAddrs_length,
    if_neg length]

/-- A reply of the request's length is converted and used up (R140). -/
theorem exec_readFromUserAddr (replies : s.replies = reply :: rest)
    (length : reply.length = (addrList x).length * bankCount s.cfg) :
    exec (.readFromUserAddr x) s = .next { s.takeCall with
      replies := rest, sent := requestAddrs s.cfg (addrList x), ret := readResult s.cfg x reply } := by
  simp only [exec, execReadFromUserAddr, find?_addrOutOfRange_of_logical logical, replies, requestAddrs_length,
    if_pos length]

end ReadFromUserAddr

/-- Settles O47: the checks stop the call in their order, each after the ones before it have passed. -/
theorem hostReadFaultsInOrder : Obligations.HostReadFaultsInOrder := by
  refine ⟨?_, ?_, ?_, ?_⟩
  · intro s good bad a logical outside
    exact exec_readFromUserAddr_of_bad rfl logical outside
  · intro s a outside
    exact exec_readFromUserAddr_of_bad (x := .one a) (good := []) rfl (by simp) outside
  · intro s x logical replies
    exact exec_readFromUserAddr_of_noReply logical replies
  · intro s x reply rest logical replies length
    exact exec_readFromUserAddr_of_badLength logical replies length

/-- Settles O48: the empty request is in range, and the empty reply has its length. -/
theorem emptyHostReadReturnsEmpty : Obligations.EmptyHostReadReturnsEmpty := by
  intro s rest replies
  exact exec_readFromUserAddr (x := .many []) (by simp [addrList]) replies (by simp [addrList])

theorem chunks_length (size count : Nat) (ws : List Int) : (chunks size count ws).length = count := by
  induction count generalizing ws with
  | zero => rfl
  | succ count ih => rw [chunks, List.length_cons, ih]

/-- Chunk `j` is the `j`-th run of `size` words (R140). -/
theorem chunks_getElem? {size count j : Nat} (hj : j < count) (ws : List Int) :
    (chunks size count ws)[j]? = some ((ws.drop (j * size)).take size) := by
  induction count generalizing j ws with
  | zero => cases hj
  | succ count ih =>
    rw [chunks]
    cases j with
    | zero => simp
    | succ j => rw [List.getElem?_cons_succ, ih (Nat.lt_of_succ_lt_succ hj), List.drop_drop, Nat.succ_mul, Nat.add_comm]

/-- The chunks of a list of the right length are that list, cut. -/
theorem chunks_flatten {size count : Nat} {ws : List Int} (h : ws.length = count * size) :
    (chunks size count ws).flatten = ws := by
  induction count generalizing ws with
  | zero => simpa [chunks, eq_comm] using h
  | succ count ih =>
    have left : (ws.drop size).length = count * size := by
      rw [List.length_drop, h, Nat.succ_mul, Nat.add_sub_cancel]
    rw [chunks, List.flatten_cons, ih left, List.take_append_drop]

/-- Chunks of accepted words are converted one by one (R140). -/
theorem chunkValues_of_codecWords {cs : List (List Int)} (h : ∀ w ∈ cs.flatten, IsCodecWord w) :
    ∃ vs, chunkValues cs = some vs ∧ vs.length = cs.length ∧ ∀ j, j < cs.length → vs[j]? = cs[j]?.bind wordsToValue := by
  induction cs with
  | nil => exact ⟨[], rfl, rfl, fun _ hj => absurd hj (Nat.not_lt_zero _)⟩
  | cons c cs ih =>
    rw [List.flatten_cons, List.forall_mem_append] at h
    obtain ⟨vs, values, length, entries⟩ := ih h.2
    have first := wordsToValue_of_codecWords h.1
    refine ⟨concatWords (c.map unsignedWord) :: vs, by simp only [chunkValues, first, values], by simp [length], ?_⟩
    intro j hj
    cases j with
    | zero => simp [first]
    | succ j => simpa using entries j (Nat.lt_of_succ_lt_succ hj)

/-- One word outside the union refuses the whole reply (R163). -/
theorem chunkValues_of_bad {cs : List (List Int)} (h : ∃ w ∈ cs.flatten, ¬ IsCodecWord w) : chunkValues cs = none := by
  induction cs with
  | nil => simp at h
  | cons c cs ih =>
    obtain ⟨w, member, bad⟩ := h
    rw [List.flatten_cons, List.mem_append] at member
    obtain here | later := member
    · simp only [chunkValues, wordsToValue_of_bad ⟨w, here, bad⟩]
    · rw [chunkValues, ih ⟨w, later, bad⟩]
      cases wordsToValue c <;> rfl

/-- A word outside the union raises RangeError, for one address and for a sequence (R163). -/
theorem readResult_of_bad {cfg : CoreConfig} {x : Addrs} {reply : List Int}
    (length : reply.length = (addrList x).length * bankCount cfg) (bad : ∃ w ∈ reply, ¬ IsCodecWord w) :
    readResult cfg x reply = .rangeError := by
  cases x with
  | one a =>
    have whole : reply.take (bankCount cfg) = reply := List.take_of_length_le (by simp [length, addrList])
    rw [readResult, whole, wordsToValue_of_bad bad]
    rfl
  | many as =>
    rw [← chunks_flatten (count := as.length) length] at bad
    simp only [readResult, chunkValues_of_bad bad]

/-- Settles O44: the call completes with `readResult` (`exec_readFromUserAddr`), which is one conversion for one address, one per
chunk for a sequence (`chunkValues_of_codecWords`), and RangeError for a word outside the union (`readResult_of_bad`). -/
theorem hostReadConvertsTheReply : Obligations.HostReadConvertsTheReply := by
  intro s reply rest replies
  refine ⟨?_, ?_, ?_⟩
  · intro a logical length accepted
    have value := wordsToValue_of_codecWords accepted
    refine ⟨_, value, ?_⟩
    rw [exec_readFromUserAddr (x := .one a) (by simpa [addrList] using logical) replies (by simp [addrList, length]),
      readResult, List.take_of_length_le length.le, value]
    rfl
  · intro as logical length accepted
    have flat := chunks_flatten length
    obtain ⟨vs, values, count, entries⟩ := chunkValues_of_codecWords (flat.symm ▸ accepted)
    rw [chunks_length] at count entries
    refine ⟨vs, count, ?_, ?_⟩
    · intro j hj
      rw [entries j hj, chunks_getElem? hj, Option.bind_some]
    · rw [exec_readFromUserAddr (x := .many as) logical replies length]
      simp only [readResult, values, addrList]
  · intro x logical length bad
    rw [exec_readFromUserAddr logical replies length, readResult_of_bad length bad]

end Sys2Proof.Machine

namespace Sys2Proof.Machine

/-! Chains of cores (41_pipeline.md R120, R123). -/

/-- An edge of a chain keeps every core's configuration. -/
theorem chainEdge_cfg {b : BusTxn} {us : List UserWord} {cs r : List State} (h : chainEdge b us cs = .next r) :
    r.map State.cfg = cs.map State.cfg := by
  induction cs generalizing b us r with
  | nil =>
    cases h
    rfl
  | cons c cs ih =>
    obtain ⟨c', cs', first, others, rfl⟩ := chainEdge_cons.1 h
    obtain ⟨-, rfl⟩ := clockEdge_next.1 first
    rw [List.map_cons, List.map_cons, ih others, edgeState_cfg]

/-- The words that the first core of a chain samples: the host's, and the side channel's given for it. -/
def firstWords (ws : List (BusTxn × List UserWord)) : List (BusTxn × UserWord) :=
  ws.map (fun p => (p.1, p.2.headD UserWord.nop))

/-- A run of a chain, seen at its first core: that core runs as if it were alone, and no configuration changes. -/
theorem chainEdges_first {ws : List (BusTxn × List UserWord)} {c : State} {cs r : List State}
    (h : chainEdges ws (c :: cs) = .next r) :
    ∃ c' cs', r = c' :: cs' ∧ clockEdges (firstWords ws) c = .next c' ∧ cs'.map State.cfg = cs.map State.cfg := by
  induction ws generalizing c cs with
  | nil =>
    cases h
    exact ⟨c, cs, rfl, rfl, rfl⟩
  | cons p ws ih =>
    obtain ⟨m, edge, run⟩ := chainEdges_cons.1 h
    obtain ⟨c1, cs1, first, others, rfl⟩ := chainEdge_cons.1 edge
    obtain ⟨c', cs', rfl, alone, cfgs⟩ := ih run
    obtain ⟨inRange, rfl⟩ := clockEdge_next.1 first
    exact ⟨c', cs', rfl, clockEdges_cons.2 ⟨inRange, alone⟩, cfgs.trans (chainEdge_cfg others)⟩

/-- A run of a chain, seen behind its first core: the other cores run as a chain of their own, which samples first what the first
core has on `bus_o` (R120). -/
theorem chainEdges_others {p : BusTxn × List UserWord} {ws : List (BusTxn × List UserWord)} {c : State} {cs r : List State}
    (h : chainEdges (p :: ws) (c :: cs) = .next r) :
    ∃ us ws', ws'.length = ws.length ∧ chainEdges ((c.busO, us) :: ws') cs = .next r.tail := by
  induction ws generalizing p c cs with
  | nil =>
    obtain ⟨m, edge, run⟩ := chainEdges_cons.1 h
    cases run
    obtain ⟨c1, cs1, -, others, rfl⟩ := chainEdge_cons.1 edge
    exact ⟨p.2.tail, [], rfl, chainEdges_cons.2 ⟨cs1, others, rfl⟩⟩
  | cons q ws ih =>
    obtain ⟨m, edge, run⟩ := chainEdges_cons.1 h
    obtain ⟨c1, cs1, -, others, rfl⟩ := chainEdge_cons.1 edge
    obtain ⟨us, ws', length, rest⟩ := ih run
    exact ⟨p.2.tail, (c1.busO, us) :: ws', by simp [length], chainEdges_cons.2 ⟨cs1, others, rest⟩⟩

/-- A run of a chain, taken apart after its first words. -/
theorem chainEdges_append {ws ws' : List (BusTxn × List UserWord)} {cs r : List State} :
    chainEdges (ws ++ ws') cs = .next r ↔ ∃ m, chainEdges ws cs = .next m ∧ chainEdges ws' m = .next r := by
  induction ws generalizing cs with
  | nil => simp [chainEdges]
  | cons p ws ih =>
    simp only [List.cons_append, chainEdges_cons, ih]
    constructor
    · rintro ⟨cs1, edge, m, run, run'⟩
      exact ⟨m, ⟨cs1, edge, run⟩, run'⟩
    · rintro ⟨m, ⟨cs1, edge, run⟩, run'⟩
      exact ⟨cs1, edge, m, run, run'⟩

/-- What the host receives does not come from the first core, where there is another. -/
theorem chainOut_cons {c : State} {cs : List State} (h : cs ≠ []) : chainOut (c :: cs) = chainOut cs := by
  cases cs with
  | nil => exact absurd rfl h
  | cons d cs => rfl

/-- A run of a chain, taken apart after four edges: the first core has run as if it were alone, and the chain goes on with the
words that are left. -/
theorem chainEdges_after_four {c : State} {cs r : List State} {p0 p1 p2 p3 : BusTxn × List UserWord}
    {ws : List (BusTxn × List UserWord)} (run : chainEdges (p0 :: p1 :: p2 :: p3 :: ws) (c :: cs) = .next r) :
    ∃ c4 cs4, clockEdges (firstWords [p0, p1, p2, p3]) c = .next c4 ∧ cs4.map State.cfg = cs.map State.cfg ∧
      chainEdges ws (c4 :: cs4) = .next r := by
  obtain ⟨m, four, rest⟩ := chainEdges_append (ws := [p0, p1, p2, p3]).1 run
  obtain ⟨c4, cs4, rfl, alone, cfgs⟩ := chainEdges_first four
  exact ⟨c4, cs4, alone, cfgs, rest⟩

/-- A run of `4 * (n + 1)` edges has four at its start, and `4 * n` behind them. -/
theorem exists_four_words {ws : List (BusTxn × List UserWord)} {n : Nat} (length : ws.length = 4 * (n + 1)) :
    ∃ p0 p1 p2 p3 ws', ws = p0 :: p1 :: p2 :: p3 :: ws' ∧ ws'.length = 4 * n :=
  match ws, length with
  | p0 :: p1 :: p2 :: p3 :: ws', length => ⟨p0, p1, p2, p3, ws', rfl, by simp only [List.length_cons] at length; omega⟩

/-- A chain's first core passes on a word that it does not answer, in four edges (R122). -/
theorem chainEdges_first_passes {p : BusTxn × List UserWord} {ws : List (BusTxn × List UserWord)} {c : State}
    {cs r : List State} {n : Nat} (length : (p :: ws).length = 4 * (n + 1)) (notOwned : isOwnedRead c.cfg p.1 = false)
    (run : chainEdges (p :: ws) (c :: cs) = .next r) :
    ∃ c4 cs4 ws', c4.busO = p.1 ∧ cs4.map State.cfg = cs.map State.cfg ∧ ws'.length = 4 * n ∧
      chainEdges ws' (c4 :: cs4) = .next r := by
  obtain ⟨p0, p1, p2, p3, ws', words, left⟩ := exists_four_words length
  obtain ⟨rfl, rfl⟩ := List.cons.inj words
  obtain ⟨c4, cs4, alone, cfgs, rest⟩ := chainEdges_after_four run
  exact ⟨c4, cs4, ws', busO_of_not_ownedRead notOwned alone, cfgs, left, rest⟩

/-- What the first core has on `bus_o` comes out of the chain four edges later per further core, if none of these answers it. By
induction on the further cores' configurations, which a run keeps, where it does not keep the cores' states. -/
theorem chainOut_of_busO {cfgs : List CoreConfig} {c : State} {cs r : List State} {ws : List (BusTxn × List UserWord)}
    (hcfgs : cs.map State.cfg = cfgs) (unanswered : ∀ cfg ∈ cfgs, isOwnedRead cfg c.busO = false)
    (length : ws.length = 4 * cfgs.length) (run : chainEdges ws (c :: cs) = .next r) : chainOut r = some c.busO := by
  induction cfgs generalizing c cs r ws with
  | nil =>
    obtain rfl := List.map_eq_nil_iff.1 hcfgs
    obtain rfl := List.eq_nil_of_length_eq_zero length
    cases run
    rfl
  | cons cfg cfgs ih =>
    obtain ⟨d, ds, rfl, rfl, hds⟩ := List.map_eq_cons_iff.1 hcfgs
    obtain ⟨first, others⟩ := List.forall_mem_cons.1 unanswered
    obtain ⟨p, ws, rfl⟩ := List.exists_cons_of_length_pos (l := ws) (by rw [length, List.length_cons]; omega)
    obtain ⟨us, ws', sameLength, behind⟩ := chainEdges_others run
    obtain ⟨d4, ds4, rest, passed, kept, left, run4⟩ :=
      chainEdges_first_passes (p := (c.busO, us)) (by simpa [sameLength] using length) first behind
    have out : chainOut r.tail = some d4.busO := ih (kept.trans hds) (by simpa [passed] using others) left run4
    obtain ⟨c', cs', rfl, -, sameCores⟩ := chainEdges_first run
    rw [chainOut_cons (by rintro rfl; cases sameCores)]
    exact out.trans (congrArg some passed)

/-- Settles O55: the first core passes the word on (`chainEdges_first_passes`), and so do the others (`chainOut_of_busO`). -/
theorem chainPassesUnownedWords : Obligations.ChainPassesUnownedWords := by
  intro cs cs' b us ws nonempty length unanswered run
  obtain ⟨c, cs, rfl⟩ := List.exists_cons_of_ne_nil nonempty
  obtain ⟨first, others⟩ := List.forall_mem_cons.1 unanswered
  obtain ⟨c4, cs4, ws', rfl, kept, left, run4⟩ := chainEdges_first_passes (p := (b, us)) length first run
  exact chainOut_of_busO kept (List.forall_mem_map.2 others) (by simpa using left) run4

/-- Settles O56: the first core runs as if it were alone for four edges (`chainEdges_after_four`), and the others pass on what it
then has on `bus_o` (`chainOut_of_busO`). -/
theorem chainKeepsTheUpstreamResponse : Obligations.ChainKeepsTheUpstreamResponse := by
  intro c c4 cs cs' p0 p1 p2 p3 ws length alone unanswered run
  obtain ⟨c4', cs4, alone', kept, run4⟩ := chainEdges_after_four run
  obtain rfl : c4 = c4' := Host.Outcome.next.inj (alone.symm.trans alone')
  exact chainOut_of_busO kept (List.forall_mem_map.2 unanswered) (by simpa using length) run4

end Sys2Proof.Machine

namespace Sys2Proof.Machine

/-! Construction (70_reset_and_hazards.md R180; 60_exceptions.md R160, R161; 10_state.md R34 to R37). -/

theorem RawValue.positive_integer {n : Nat} (h : 1 ≤ n) : (RawValue.integer n).positive = some n := by
  have positive : (1 : Int) ≤ n := by exact_mod_cast h
  simp [RawValue.positive, positive]

/-- A missing, non-integer or non-positive value is not accepted (R160). -/
theorem RawValue.positive_of_bad {v : RawValue}
    (h : v = .missing ∨ v = .nonInteger ∨ ∃ n : Int, n ≤ 0 ∧ v = .integer n) :
    v.positive = none := by
  obtain rfl | rfl | ⟨n, bad, rfl⟩ := h
  · rfl
  · rfl
  · exact if_neg (by omega)

/-- Settles O7: the check of the two values comes before that of the window's end, and a configuration passes both by its own
proof fields. -/
theorem constructionChecksInOrder : Obligations.ConstructionChecksInOrder := by
  refine ⟨?_, ?_, ?_⟩
  · intro v w base core bad
    have refused := RawValue.positive_of_bad bad
    constructor
    · simp only [construct, refused]
    · cases other : w.positive <;> simp only [construct, refused, other]
  · intro d w base core hd hw overflow
    simp only [construct, RawValue.positive_integer hd, RawValue.positive_integer hw]
    exact dif_neg fun fits => absurd fits.2 overflow.not_ge
  · intro cfg core
    simp only [construct, RawValue.positive_integer cfg.depth_pos, RawValue.positive_integer cfg.width_pos]
    exact dif_pos ⟨⟨cfg.depth_pos, cfg.width_pos⟩, cfg.fits⟩

/-- Settles O8: the stages and `bus_o` by their equations, each bank by `initial_bank`; no row is listed, so each reads INIT. -/
theorem constructionValues : Obligations.ConstructionValues := by
  intro cfg core
  refine ⟨rfl, rfl, rfl, rfl, initial_banks_length cfg core, fun i _ => ⟨?_, fun r _ => ?_⟩⟩
  · rw [initial_bank, initialBank]
  · rw [State.memRead, initial_bank]
    rfl

/-- The next contents of a bank do not depend on what its read port latched last: an edge reads `rdata` in egress alone. -/
theorem nextBank_congr {s t : State} {i : Nat} (b : BusTxn) (u : UserWord) (cfg : t.cfg = s.cfg) (core : t.core = s.core)
    (draws : t.draws = s.draws) (raddr : (t.bank i).raddr = (s.bank i).raddr) (rows : (t.bank i).rows = (s.bank i).rows) :
    nextBank b u t i = nextBank b u s i := by
  have collision : collides u t i = collides u s i := by rw [collides, collides, raddr]
  have row : t.memRead i (s.bank i).raddr = s.memRead i (s.bank i).raddr := by
    rw [State.memRead, State.memRead, rows, cfg, core]
  have draw : t.drawNow i = s.drawNow i := by rw [State.drawNow, State.drawNow, cfg, core, draws]
  simp only [nextBank, nextRaddr, nextRdata, nextRows, cfg, raddr, rows, collision, row, draw]

/-- Two states that differ in `rdata` alone, and have no read in stage 2, go to the same state. -/
theorem edgeState_withBanks {s : State} {banks : List Bank} (b : BusTxn) (u : UserWord) (notRead : isRead s.stage2 = false)
    (raddr : ∀ i, i < bankCount s.cfg → (({ s with banks := banks } : State).bank i).raddr = (s.bank i).raddr)
    (rows : ∀ i, i < bankCount s.cfg → (({ s with banks := banks } : State).bank i).rows = (s.bank i).rows) :
    edgeState b u { s with banks := banks } = edgeState b u s := by
  have egress_eq : egress { s with banks := banks } = egress s :=
    (egress_of_not_read (s := { s with banks := banks }) notRead).trans (egress_of_not_read notRead).symm
  have banks_eq : (List.range (bankCount s.cfg)).map (nextBank b u { s with banks := banks }) =
      (List.range (bankCount s.cfg)).map (nextBank b u s) := by
    refine List.map_congr_left fun i hi => ?_
    exact nextBank_congr b u rfl rfl rfl (raddr i (List.mem_range.1 hi)) (rows i (List.mem_range.1 hi))
  simp only [edgeState, egress_eq, banks_eq]

/-- Settles O10: stage 2 is idle at construction, so the edge does not depend on `rdata` (`edgeState_withBanks`). -/
theorem constructionReadDataIsUnobservable : Obligations.ConstructionReadDataIsUnobservable := by
  intro cfg core rd b u
  unfold clockEdge
  rw [edgeState_withBanks (s := State.initial cfg core) b u rfl]
  all_goals
    intro i hi
    have bank : i < bankCount cfg := hi
    simp [State.bank, State.initial, bank]

/-! The platform reset, the step, and table words (70_reset_and_hazards.md R182; 30_encoding.md R63 to R70). -/

/-- Settles O11: the fields of the reset state, each by its equation; the reset is taken off the inputs, and the rest stays. -/
theorem platformResetKeepsStorage : Obligations.PlatformResetKeepsStorage := by
  intro s rest inputs
  have taken : s.takeReset = { s with inputs := rest } := by simp only [State.takeReset, inputs]
  refine ⟨platformReset { s with inputs := rest }, ?_, rfl, rfl, rfl, rfl, ?_, rfl, rfl, rfl, rfl, rfl, rfl, rfl⟩
  · simp only [step, inputs, taken]
  · intro i hi
    have bank := platformReset_bank { s with inputs := rest } (i := i) hi
    refine ⟨?_, ?_, memRead_platformReset (s := { s with inputs := rest }) hi⟩
    · rw [bank]
    · rw [bank]
      rfl

/-- With an edge at hand, a step is the clock edge of both its words. -/
theorem step_of_edge {s : State} {b : BusTxn} {u : UserWord} {rest : List Input} (inputs : s.inputs = .edge b u :: rest) :
    step s = clockEdge b u { s with inputs := rest } := by
  simp only [step, inputs, exec_decodeBus, sampleBus, State.userNow, State.takeEdge]

/-- With an edge at hand, a step runs the user-port word of that edge. -/
theorem step_eq_exec_decodeUser {s : State} {b : BusTxn} {u : UserWord} {rest : List Input}
    (inputs : s.inputs = .edge b u :: rest) : step s = exec (decodeUser u) s := by
  rw [step_of_edge inputs, exec_decodeUser]
  simp only [sampleUser, State.busNow, State.takeEdge, inputs]

theorem step_eq_exec_decodeBus {s : State} {b : BusTxn} {u : UserWord} {rest : List Input}
    (inputs : s.inputs = .edge b u :: rest) : step s = exec (decodeBus s.cfg b) s := by
  simp only [step, inputs]

/-- Settles O13: the two ports' ways to run an edge meet in the clock edge of both words (`step_of_edge`). -/
theorem stepRunsTheDecodedInstruction : Obligations.StepRunsTheDecodedInstruction := by
  refine ⟨?_, ?_, ?_⟩
  · intro s b u rest inputs
    exact ⟨step_eq_exec_decodeBus inputs, step_eq_exec_decodeUser inputs, step_of_edge inputs⟩
  · intro s c rest inputs
    simp only [step, inputs]
  · intro s inputs
    simp only [step, inputs, exec_decodeBus, sampleBus, State.userNow, State.takeEdge]

/-- Placing the words of the next edge puts an edge at the head of the inputs, and keeps the configuration. -/
theorem withEdge_inputs (s : State) (b : BusTxn) (u : UserWord) :
    (∃ rest, (s.withEdge b u).inputs = .edge b u :: rest) ∧ (s.withEdge b u).cfg = s.cfg := by
  unfold State.withEdge
  split <;> exact ⟨⟨_, rfl⟩, rfl⟩

/-- What a number on the bus port decodes to, where it is a bus word. -/
theorem eq_decodeBus_of_decode {cfg : CoreConfig} {w : Nat} {i : Instr} (h : decode cfg (.bus w) = .ok i) :
    i = decodeBus cfg (BusTxn.unpack (BitVec.ofNat 34 w)) := by
  simp only [decode] at h
  split_ifs at h
  exact (Except.ok.inj h).symm

/-- What a number on the user port decodes to, where it is a user-port word. -/
theorem eq_decodeUser_of_decode {cfg : CoreConfig} {w : Nat} {i : Instr} (h : decode cfg (.user w) = .ok i) :
    i = decodeUser (UserWord.unpack cfg w) := by
  simp only [decode] at h
  split_ifs at h
  exact (Except.ok.inj h).symm

/-- A table word that stands for an instruction is the word of one of the two ports (log entry 11), and decodes there. -/
theorem decodeTableWord_cases {nbits w : Nat} {i : Instr} (h : decodeTableWord nbits w = some i) :
    (fetchedOfBits nbits w = some (.bus w) ∧ decode CoreConfig.k33 (.bus w) = .ok i) ∨
    (fetchedOfBits nbits w = some (.user w) ∧ decode CoreConfig.k33 (.user w) = .ok i) := by
  unfold decodeTableWord at h
  split at h
  next f port =>
    split at h
    next j read =>
      obtain rfl := Option.some.inj h
      have ports : f = .bus w ∨ f = .user w := by
        unfold fetchedOfBits at port
        split_ifs at port
        · exact .inr (Option.some.inj port).symm
        · exact .inl (Option.some.inj port).symm
      obtain rfl | rfl := ports
      · exact .inl ⟨port, read⟩
      · exact .inr ⟨port, read⟩
    next => cases h
  next => cases h

/-- Settles O14: the placed word is one word of the edge at hand, and the step runs that edge through either of its words. -/
theorem fetchedWordRunsNext : Obligations.FetchedWordRunsNext := by
  intro s nbits w i k33 decoded
  obtain ⟨port, read⟩ | ⟨port, read⟩ := decodeTableWord_cases decoded
  · obtain ⟨⟨rest, inputs⟩, cfg⟩ := withEdge_inputs s (BusTxn.unpack (BitVec.ofNat 34 w)) s.userNow
    simp only [State.withFetchWord, port]
    rw [step_eq_exec_decodeBus inputs, cfg, k33, eq_decodeBus_of_decode read]
  · obtain ⟨⟨rest, inputs⟩, -⟩ := withEdge_inputs s s.busNow (UserWord.unpack s.cfg w)
    simp only [State.withFetchWord, port]
    rw [step_eq_exec_decodeUser inputs, k33, eq_decodeUser_of_decode read]

/-- Settles O54: the decoder, run on each word. -/
theorem wordsOfTheTablesDecode : Obligations.WordsOfTheTablesDecode := by
  refine ⟨?_, ?_, ?_, ?_, ?_, ?_, ?_⟩ <;> decide

end Sys2Proof.Machine
